-- ==== Sys2Proof/Word.lean ====
section
/-! DEFINITION. Bytes and byte sequences (spec/00_scope.md R9, R11). -/

namespace Sys2Proof

/-- A byte is 8 bits (R9; PRESUMED by the spec itself, U1; log 11). -/
abbrev Byte := BitVec 8

/-- A finite sequence of bytes; index 0 is the first byte the caller supplied (R11, R61). -/
abbrev Bytes := List Byte

end Sys2Proof
end

