-- ==== Sys2Proof/Config.lean ====
section
/-! DEFINITION. What an implementation fixes for the life of the hardware: the capacities (R7) and the
BlockTransform (R8). R20 makes both arguments of the step relation, not state. -/

namespace Sys2Proof

/-- The capacities of R7, with R7's constraints carried as proofs. The default values are only the
smallest ones that meet the constraints. -/
structure Capacities where
  /-- `BS_MAX`: the largest block size in bytes. -/
  bsMax : Nat := 1
  /-- `KEY_MAX`: capacity of the key buffer in bytes. -/
  keyMax : Nat := 1
  /-- `IV_MAX`: capacity of the IV buffer in bytes. -/
  ivMax : Nat := 2
  /-- `IN_MAX`: capacity of the input buffer in bytes. -/
  inMax : Nat := 0
  /-- `LEN_W`: width in bits of every length register. -/
  lenW : Nat := 2
  bsMax_pos : 1 ≤ bsMax := by decide
  bsMax_le_keyMax : bsMax ≤ keyMax := by decide
  bsMax_lt_ivMax : bsMax + 1 ≤ ivMax := by decide
  lenW_covers : max (inMax + bsMax - 1) (max keyMax ivMax) < 2 ^ lenW := by decide
  deriving DecidableEq, Repr, Inhabited

/-- `OUT_MAX = IN_MAX + BS_MAX - 1` (R7). -/
def Capacities.outMax (c : Capacities) : Nat := c.inMax + c.bsMax - 1

/-- The BlockTransform (R215): two pure functions of a block and a whole key (R216), each answering a
block or `Fail` (`none`, R218). The length contract of R217 is in the result type, as R217 offers.
Nothing else is assumed of it (R222). -/
structure BlockTransform where
  encryptBlock : (b : Bytes) → (key : Bytes) → Option {c : Bytes // c.length = b.length}
  decryptBlock : (b : Bytes) → (key : Bytes) → Option {c : Bytes // c.length = b.length}
  deriving Inhabited

/-- `E(b, k)` of R8 and R215; `none` is `Fail`. -/
def BlockTransform.E (bt : BlockTransform) (b key : Bytes) : Option Bytes :=
  (bt.encryptBlock b key).map Subtype.val

/-- `D(b, k)` of R8 and R215; `none` is `Fail`. -/
def BlockTransform.D (bt : BlockTransform) (b key : Bytes) : Option Bytes :=
  (bt.decryptBlock b key).map Subtype.val

/-- `INV(E, D)` of R219, over the domain of R220: whenever encryption of a block answers, decryption of
the answer gives the block back. A named property, never assumed by the engine. -/
def BlockTransform.Invertible (c : Capacities) (bt : BlockTransform) : Prop :=
  ∀ b key x : Bytes, 1 ≤ b.length → b.length ≤ c.bsMax → b.length ≤ key.length →
    bt.E b key = some x → bt.D x key = some b

/-- The implementation's capacities: any that meet R7 (OPEN, D3; log 5). -/
opaque Config.capacities : Capacities

/-- The implementation's block transform: any that meets R216 and R217 (OPEN, D4; log 6). -/
opaque Config.transform : BlockTransform

end Sys2Proof
end

