-- ==== Sys2Proof/Syntax.lean ====
section
/-! DEFINITION. The four commands of the opcode table, their written form (R98), and the moves of the
host (R270) with the register numbers' names (R95). -/

namespace Sys2Proof

/-- The field `OP` of a command (R26). -/
inductive Op where
  | encrypt
  | decrypt
  deriving DecidableEq, Repr

/-- The field `MODE` of a command (R26). -/
inductive Mode where
  | ecb
  | cbc
  deriving DecidableEq, Repr

/-- The commands: one constructor per row of spec/opcode_table.json. Each carries its two flag operands
`IVP` (an IV is supplied) and `OLP` (an original length is supplied), legal in every combination (R92). -/
inductive Instr where
  /-- `ENC.ECB` (R231). -/
  | encEcb (ivp olp : Bool)
  /-- `DEC.ECB` (R233). -/
  | decEcb (ivp olp : Bool)
  /-- `ENC.CBC` (R232). -/
  | encCbc (ivp olp : Bool)
  /-- `DEC.CBC` (R234). -/
  | decCbc (ivp olp : Bool)
  deriving DecidableEq, Repr

/-- A flag as it is written after a mnemonic: `+iv` or `+olen` (R98). -/
inductive Flag where
  | iv
  | olen
  deriving DecidableEq, Repr

/-- A command as it is written: `("ENC" | "DEC") "." ("ECB" | "CBC")` and a list of flags (R98). -/
structure CommandText where
  op : Op
  mode : Mode
  flags : List Flag
  deriving DecidableEq, Repr

/-- The registers and ports of R95, by name. -/
inductive Reg where
  | cmd
  | status
  | err
  | fcause
  | blksz
  | origlen
  | keylen
  | ivlen
  | inlen
  | outlen
  | keyport
  | ivport
  | inport
  | outport
  deriving DecidableEq, Repr

/-- The moves of the host (R270). Registers and ports are named by their 4-bit numbers (R95): the
number is decoded when the move is made, and a reserved number is refused there. -/
inductive HostMove where
  /-- `LOAD buf, s`: replace the buffer behind a load port (R271). -/
  | load (port : BitVec 4) (s : Bytes)
  /-- `SET reg, n` (R272). -/
  | set (reg : BitVec 4) (n : Nat)
  /-- `START w`: write the command word to `CMD` (R273). -/
  | start (w : BitVec 8)
  /-- `READ r`, and `READ OUT` for the read port (R274). -/
  | read (reg : BitVec 4)
  /-- `RESET` (R330). -/
  | reset
  deriving DecidableEq, Repr

end Sys2Proof
end

