-- ==== Sys2Proof/Decode.lean ====
section
/-! DEFINITION. The command word `CMD8` (R90 to R92): decoder, then encoder; the written form's word (R98);
the register numbers (R95). -/

namespace Sys2Proof

/-- Why a byte sequence is no command. -/
inductive DecodeError where
  /-- There is no byte to read a command word from. Raised by the decoder only; safe. -/
  | noWord
  /-- Bits 7:4 are not 0b0000: one of the 240 reserved words (R94). Safe. -/
  | reservedBits
  deriving DecidableEq, Repr

/-- The decoder of R92: reserved unless `w[7:4] = 0`; then `OP = w[0]`, `MODE = w[1]`, `IVP = w[2]`,
`OLP = w[3]`. -/
def decodeWord (w : BitVec 8) : Except DecodeError Instr :=
  if w.extractLsb' 4 4 = 0#4 then
    .ok (match w.getLsbD 1, w.getLsbD 0 with
      | false, false => .encEcb (w.getLsbD 2) (w.getLsbD 3)
      | false, true => .decEcb (w.getLsbD 2) (w.getLsbD 3)
      | true, false => .encCbc (w.getLsbD 2) (w.getLsbD 3)
      | true, true => .decCbc (w.getLsbD 2) (w.getLsbD 3))
  else .error .reservedBits

/-- Decode the first command of a byte sequence and hand back the rest; every command is one byte (R90). -/
def decode : Bytes → Except DecodeError (Instr × Bytes)
  | [] => .error .noWord
  | w :: rest =>
    match decodeWord w with
    | .ok i => .ok (i, rest)
    | .error e => .error e

/-- The word with the four fields of R91 at the given values. -/
def fieldsWord (op mode ivp olp : Bool) : BitVec 8 :=
  0#4 ++ (BitVec.ofBool olp ++ (BitVec.ofBool ivp ++ (BitVec.ofBool mode ++ BitVec.ofBool op)))

/-- The command word of an instruction (R91, R92). -/
def encode : Instr → BitVec 8
  | .encEcb ivp olp => fieldsWord false false ivp olp
  | .decEcb ivp olp => fieldsWord true false ivp olp
  | .encCbc ivp olp => fieldsWord false true ivp olp
  | .decCbc ivp olp => fieldsWord true true ivp olp

/-- The instruction with given `OP`, `MODE`, `IVP`, `OLP` (R92). -/
def instrOfFields (op : Op) (mode : Mode) (ivp olp : Bool) : Instr :=
  match op, mode with
  | .encrypt, .ecb => .encEcb ivp olp
  | .decrypt, .ecb => .decEcb ivp olp
  | .encrypt, .cbc => .encCbc ivp olp
  | .decrypt, .cbc => .decCbc ivp olp

/-- The instruction a written command stands for: `IVP = 1` if `+iv` is written, `OLP = 1` if `+olen`
is (R98). -/
def CommandText.instr (t : CommandText) : Instr :=
  instrOfFields t.op t.mode (t.flags.contains .iv) (t.flags.contains .olen)

/-- The word of a written command, `OP + 2*MODE + 4*IVP + 8*OLP` (R98). -/
def CommandText.word (t : CommandText) : Nat :=
  (if t.op = .decrypt then 1 else 0) + 2 * (if t.mode = .cbc then 1 else 0)
    + 4 * (if t.flags.contains .iv then 1 else 0) + 8 * (if t.flags.contains .olen then 1 else 0)

/-- The number of a register or port (R95). -/
def Reg.number : Reg → BitVec 4
  | .cmd => 0x0#4
  | .status => 0x1#4
  | .err => 0x2#4
  | .fcause => 0x3#4
  | .blksz => 0x4#4
  | .origlen => 0x5#4
  | .keylen => 0x6#4
  | .ivlen => 0x7#4
  | .inlen => 0x8#4
  | .outlen => 0x9#4
  | .keyport => 0xA#4
  | .ivport => 0xB#4
  | .inport => 0xC#4
  | .outport => 0xD#4

/-- The register or port of a number; 0xE and 0xF are reserved (R95, U21). -/
def Reg.ofNumber (n : BitVec 4) : Option Reg :=
  match n.toNat with
  | 0x0 => some .cmd
  | 0x1 => some .status
  | 0x2 => some .err
  | 0x3 => some .fcause
  | 0x4 => some .blksz
  | 0x5 => some .origlen
  | 0x6 => some .keylen
  | 0x7 => some .ivlen
  | 0x8 => some .inlen
  | 0x9 => some .outlen
  | 0xA => some .keyport
  | 0xB => some .ivport
  | 0xC => some .inport
  | 0xD => some .outport
  | _ => none

/-- The byte at the lowest address of an instruction whose bits are `w`, numbered as the opcode table
numbers them (bit 0 the least significant bit of the first word), `nbits` of them given and the rest 0
(log 25). -/
def tableWordByte (nbits w : Nat) : BitVec 8 :=
  BitVec.ofNat 8 (w % 2 ^ nbits)

/-- The instruction the decoder reads from an instruction whose bits are `w`. -/
def decodeTableWord (nbits w : Nat) : Option Instr :=
  match decode [tableWordByte nbits w] with
  | .ok (i, _) => some i
  | .error _ => none

end Sys2Proof
end

