-- ==== Sys2Proof/Machine/State.lean ====
section
/-! DEFINITION. The state of the machine (R20), the state right after reset (R38), and the reasons a
model step stops. Plain data throughout. -/

namespace Sys2Proof.Machine

/-- The engine's control state `PHASE` (R30). -/
inductive Phase where
  /-- `IDLE`: no command since reset. -/
  | idle
  /-- `VALIDATE`: ModeConfig check pending. -/
  | validate
  /-- `PREP`: padding or length checks and partition set-up pending. -/
  | prep
  /-- `PROCESS`: block loop. -/
  | process
  /-- `FINISH`: reassembly, unpadding and clean-up pending. -/
  | finish
  /-- `DONE`: result in `OUT`. -/
  | done
  /-- `ERROR`: error kind in `ERR`. -/
  | error
  /-- `FAULT`: halted, cause in `FCAUSE`. -/
  | fault
  deriving DecidableEq, Repr

/-- The four error kinds, the document's `ModeError` (R290). -/
inductive ModeError where
  | invalidConfig
  | invalidKey
  | invalidIV
  | transformFailure
  deriving DecidableEq, Repr

/-- The two causes of phase FAULT (R300). -/
inductive FaultCause where
  | partitionAssert
  | unpadRange
  deriving DecidableEq, Repr

/-- The register `CMD`: four one-bit fields (R26). -/
structure Command where
  op : Op
  mode : Mode
  ivp : Bool
  olp : Bool
  deriving DecidableEq, Repr

/-- One turn of the interleaving of the two agents (R14, R68; log 1). -/
inductive Turn where
  /-- The engine moves, if it has an enabled step. -/
  | engine
  /-- The host makes a move. -/
  | host (m : HostMove)
  /-- The host repeats `READ STATUS` until `BUSY = 0`, the pseudo-instruction `WAIT` (R100; log 15). -/
  | wait
  deriving DecidableEq, Repr

/-- What a read hands to the host: a number, or the byte sequence of `READ OUT` (R99, R274). -/
inductive ReadData where
  | number (n : Nat)
  | bytes (s : Bytes)
  deriving DecidableEq, Repr

/-- The five byte buffers, each an address space of its own (R60). -/
inductive Space where
  | key
  | iv
  | inp
  | work
  | out
  deriving DecidableEq, Repr

/-- The state: the machine's (R20), then two fields of the model's own for the host agent. A buffer is
its byte sequence in index order: entry `i` is the byte at index `i`, and an index at or above the
length holds no value (R60, R61; log 10). -/
structure State where
  /-- `BLKSZ` (R21). -/
  blksz : Nat
  /-- `KEY` (R22). -/
  key : Bytes
  /-- `IV` (R23). -/
  iv : Bytes
  /-- `IN` (R24). -/
  inp : Bytes
  /-- `ORIGLEN` (R25). -/
  origlen : Nat
  /-- `CMD` (R26). -/
  cmd : Command
  /-- `PHASE` (R30). -/
  phase : Phase
  /-- `ERR`, `none` for code 0 (R28). -/
  err : Option ModeError
  /-- `FCAUSE`, `none` for code 0 (R29). -/
  fcause : Option FaultCause
  /-- `BIDX` (R31). -/
  bidx : Nat
  /-- `NBLK` (R32). -/
  nblk : Nat
  /-- `PREV`, the chain register (R33). -/
  prev : Option Bytes
  /-- `WORK` (R34). -/
  work : Bytes
  /-- `OUT` (R35). -/
  out : Bytes
  /-- The model's own: the turns still to be taken (log 1). -/
  turns : List Turn
  /-- The model's own: what the latest read handed to the host (log 2). -/
  readData : Option ReadData
  deriving DecidableEq, Repr

/-- The machine right after reset: the table of R38. The two fields of the model's own are empty
(DESIGN CHOICE, log 1 and log 2). -/
def State.reset : State where
  blksz := 0
  key := []
  iv := []
  inp := []
  origlen := 0
  cmd := { op := .encrypt, mode := .ecb, ivp := false, olp := false }
  phase := .idle
  err := none
  fcause := none
  bidx := 0
  nblk := 0
  prev := none
  work := []
  out := []
  turns := []
  readData := none

/-- The reasons a step ends in a fault of the MODEL. Each stands for a state that no run from reset
reaches and in which the rule concerned is undefined; all are safe (log 8). The hardware's own faults
are phase FAULT, a next state (R300). -/
inductive Fault where
  /-- PROCESS reads `PREV` while it is `none` (R33 asks for a fault). Raised by the block step. Safe. -/
  | prevAbsent
  /-- The operands of `xor` differ in length (R11 leaves it undefined). Raised by the block step. Safe. -/
  | chainWidth
  /-- The block to slice is not inside `WORK` (R161 leaves it undefined). Raised by PROCESS. Safe. -/
  | sliceRange
  /-- `BIDX` is above `NBLK`, a case R238 does not have. Raised by PROCESS. Safe. -/
  | blockIndexRange
  /-- PREP runs with `BLKSZ = 0`, for which padding and division are undefined (R141, R236). Safe. -/
  | blockSizeZero
  /-- FINISH would unpad to more bytes than `OUT` holds (R145's precondition). Safe. -/
  | unpadPrecondition
  deriving DecidableEq, Repr

/-- The reasons the model gives a move no step. R14 and R270: a refused move has no step and no meaning,
which errs toward unprovable; all are safe (log 4, log 20). -/
inductive Refusal where
  /-- An instruction whose meaning is not written. No arm answers so in this model. Safe. -/
  | notModelled (mnemonic : String)
  /-- `START` with one of the 240 reserved words (R94). Raised by the host's start move. Safe. -/
  | reservedCommandWord
  /-- The number names no register, 0xE or 0xF (R95). Raised by load, set and read. Safe. -/
  | reservedRegister
  /-- The register exists but has no access in that direction, such as a read of `KEYPORT` (R95, R274).
  Raised by load, set and read. Safe. -/
  | noSuchAccess
  /-- The engine is busy, and only `READ STATUS` and `RESET` have steps (R275). Raised by every other
  move. Safe. -/
  | busyLockout
  /-- Phase FAULT, where `LOAD`, `SET` and `START` have no step (R276). Safe. -/
  | faultLockout
  /-- `READ OUT` or `READ OUTLEN` in IDLE, ERROR or FAULT: there is no result to read (R274). Safe. -/
  | noResult
  /-- A `SET` beyond the register's range or a `LOAD` beyond the buffer's capacity (R271, R272). Safe. -/
  | outOfRange
  deriving DecidableEq, Repr

end Sys2Proof.Machine
end

