-- ==== Sys2Proof/Machine/Flags.lean ====
section
/-! DEFINITION. `STATUS` and the codes of `ERR`, `FCAUSE` and `PHASE` (R27 to R30, R97). These are the only
flags of the hardware; there are no arithmetic condition codes (R27). -/

namespace Sys2Proof.Machine

/-- `STATUS.BUSY`: the phases in which the engine has an enabled step (R27, R30). -/
def Phase.busy : Phase → Bool
  | .idle => false
  | .validate => true
  | .prep => true
  | .process => true
  | .finish => true
  | .done => false
  | .error => false
  | .fault => false

/-- The phases in which `LOAD`, `SET` and `START` are permitted: IDLE, DONE, ERROR (R270). -/
def Phase.hostOpen : Phase → Bool
  | .idle => true
  | .validate => false
  | .prep => false
  | .process => false
  | .finish => false
  | .done => true
  | .error => true
  | .fault => false

/-- The 4-bit register `STATUS` as a view of `PHASE`: bit 0 `BUSY`, bit 1 `DONE`, bit 2 `ERRF`, bit 3
`FLTF` (R27). -/
def statusOf (p : Phase) : BitVec 4 :=
  BitVec.ofBool (decide (p = .fault)) ++
    (BitVec.ofBool (decide (p = .error)) ++
      (BitVec.ofBool (decide (p = .done)) ++ BitVec.ofBool p.busy))

/-- The code of an error kind in `ERR` (R28, R290). -/
def ModeError.code : ModeError → BitVec 3
  | .invalidConfig => 1#3
  | .invalidKey => 2#3
  | .invalidIV => 3#3
  | .transformFailure => 4#3

/-- The 3-bit content of `ERR`; 0 is none (R28). -/
def errCode : Option ModeError → BitVec 3
  | none => 0#3
  | some k => k.code

/-- The code of a fault cause in `FCAUSE` (R29, R300). -/
def FaultCause.code : FaultCause → BitVec 2
  | .partitionAssert => 1#2
  | .unpadRange => 2#2

/-- The 2-bit content of `FCAUSE`; 0 is none (R29). -/
def fcauseCode : Option FaultCause → BitVec 2
  | none => 0#2
  | some c => c.code

/-- The 3-bit encoding of `PHASE` that R97 suggests to implementations; nothing of the model depends
on it. -/
def Phase.code : Phase → BitVec 3
  | .idle => 0#3
  | .validate => 1#3
  | .prep => 2#3
  | .process => 3#3
  | .finish => 4#3
  | .done => 5#3
  | .error => 6#3
  | .fault => 7#3

end Sys2Proof.Machine
end

