-- ==== Sys2Proof/Machine/Operands.lean ====
section
/-! DEFINITION. How a command's operands are formed from the command register and the state (R93), the
register `CMD` as a word (R26), and the values the registers read as (R274). -/

namespace Sys2Proof.Machine

/-- The four fields a command word writes into `CMD` (R26, R273). -/
def Command.ofInstr : Instr → Command
  | .encEcb ivp olp => { op := .encrypt, mode := .ecb, ivp := ivp, olp := olp }
  | .decEcb ivp olp => { op := .decrypt, mode := .ecb, ivp := ivp, olp := olp }
  | .encCbc ivp olp => { op := .encrypt, mode := .cbc, ivp := ivp, olp := olp }
  | .decCbc ivp olp => { op := .decrypt, mode := .cbc, ivp := ivp, olp := olp }

/-- The instruction `CMD` holds. -/
def Command.instr (c : Command) : Instr :=
  instrOfFields c.op c.mode c.ivp c.olp

/-- `CMD` reads back as the 8-bit command word with bits 7:4 zero (R26). -/
def Command.word (c : Command) : BitVec 8 :=
  encode c.instr

/-- `iv_opt = if CMD.IVP = 1 then some(IV) else none` (R93). -/
def State.ivOpt (s : State) : Option Bytes :=
  if s.cmd.ivp then some s.iv else none

/-- `olen_opt = if CMD.OLP = 1 then some(ORIGLEN) else none` (R93). -/
def State.olenOpt (s : State) : Option Nat :=
  if s.cmd.olp then some s.origlen else none

/-- The content of an address space (R60). -/
def State.buffer (s : State) : Space → Bytes
  | .key => s.key
  | .iv => s.iv
  | .inp => s.inp
  | .work => s.work
  | .out => s.out

/-- Byte `a` of an address space; an index at or above the buffer's length holds no value (R60). -/
def State.byteAt (s : State) (sp : Space) (a : Nat) : Option Byte :=
  (s.buffer sp)[a]?

/-- What a readable register or port holds, zero-extended to a natural (R26 to R29, R21 to R25, R35,
R274). The load ports have no value to read (R274). -/
def State.regValue (s : State) : Reg → Option ReadData
  | .cmd => some (.number s.cmd.word.toNat)
  | .status => some (.number (statusOf s.phase).toNat)
  | .err => some (.number (errCode s.err).toNat)
  | .fcause => some (.number (fcauseCode s.fcause).toNat)
  | .blksz => some (.number s.blksz)
  | .origlen => some (.number s.origlen)
  | .keylen => some (.number s.key.length)
  | .ivlen => some (.number s.iv.length)
  | .inlen => some (.number s.inp.length)
  | .outlen => some (.number s.out.length)
  | .keyport => none
  | .ivport => none
  | .inport => none
  | .outport => some (.bytes s.out)

end Sys2Proof.Machine
end

