-- ==== Sys2Proof/Machine/Padder.lean ====
section
/-! DEFINITION. The Padder: zero-byte fill (R140 to R148), and its byte-serial machine (R143). -/

namespace Sys2Proof.Machine

/-- `zeros(n)`: `n` bytes of value 0x00 (R11). -/
def zeros (n : Nat) : Bytes :=
  List.replicate n 0#8

/-- `ceil_div(a, b)`, for `b > 0` (R12); 0 for `b = 0` (DESIGN CHOICE, log 26). -/
def ceilDiv (a b : Nat) : Nat :=
  (a + b - 1) / b

/-- The padded length, for `bs > 0`: the smallest multiple of the block size at or above the message length
(R141); 0 for `bs = 0` (DESIGN CHOICE, log 26). -/
def paddedLength (n bs : Nat) : Nat :=
  ceilDiv n bs * bs

/-- The number of filler bytes, for `bs > 0` (R142); 0 for `bs = 0` (DESIGN CHOICE, log 26). -/
def npad (n bs : Nat) : Nat :=
  (bs - n % bs) % bs

/-- `pad(m, bs)`, for `bs > 0`: the message, then zero bytes up to the padded length (R141). The message
itself for `bs = 0`, which R141 never evaluates (DESIGN CHOICE, log 26). -/
def pad (m : Bytes) (bs : Nat) : Bytes :=
  m ++ zeros (paddedLength m.length bs - m.length)

/-- `unpad(pm, n)`, for `n <= len(pm)`: the first `n` bytes, the rest not examined (R145). All of `pm` for a
larger `n`, where R145 defines nothing (DESIGN CHOICE, log 26: FINISH faults before it). -/
def unpad (pm : Bytes) (n : Nat) : Bytes :=
  pm.take n

/-- The states of the padding machine (R143). -/
inductive PadState where
  | pass
  | fill
  | stop
  deriving DecidableEq, Repr

/-- The padding machine's registers: state, bytes emitted, byte counter `j` (R143). -/
structure PadRegs where
  st : PadState
  j : Nat
  out : Bytes
  deriving DecidableEq, Repr

/-- One move of the padding machine (R143). -/
def padFsmStep (m : Bytes) (bs : Nat) (r : PadRegs) : PadRegs :=
  match r.st with
  | .pass =>
    match m[r.j]? with
    | some b => { r with j := r.j + 1, out := r.out ++ [b] }
    | none => { r with st := if r.j % bs = 0 then .stop else .fill }
  | .fill =>
    { st := if (r.j + 1) % bs = 0 then .stop else .fill, j := r.j + 1, out := r.out ++ [0#8] }
  | .stop => r

/-- `fuel` moves of the padding machine. -/
def padFsmRun (m : Bytes) (bs : Nat) : Nat → PadRegs → PadRegs
  | 0, r => r
  | fuel + 1, r => padFsmRun m bs fuel (padFsmStep m bs r)

/-- `pad_fsm(m, bs)`, for `bs > 0`: the machine from its start, run for as many moves as it can need,
at most `len(m) + bs - 1` bytes and one change of state (R143, R144; log 17). For `bs = 0` the run is cut
after `len(m)` moves (DESIGN CHOICE, log 26). -/
def padFsm (m : Bytes) (bs : Nat) : PadRegs :=
  padFsmRun m bs (m.length + bs) { st := .pass, j := 0, out := [] }

end Sys2Proof.Machine
end

