-- ==== Sys2Proof/Machine/Ops.lean ====
section
/-! DEFINITION. The named operations over buffers and registers: block-wide accesses (R13, R64), byte-wise
xor (R11), error entry (R296), fault entry (R300), the start of a command, which is also the return from
an error (R273, R298), and reset (R330). -/

namespace Sys2Proof.Machine

/-- `MemRead(BUF, addr, n) = BUF[addr : addr+n]` (R13), for `addr + n <= len(BUF)` (R11). Beyond the end R11
defines no slice; this answers the bytes that are there, a shorter sequence (DESIGN CHOICE, log 26: the
machine reads only through `slice`, which has no answer there). -/
def memRead (buf : Bytes) (addr n : Nat) : Bytes :=
  (buf.drop addr).take n

/-- `MemWrite(BUF, addr, n, v)`: those `n` bytes replaced by `v` (R13), for `addr + n <= len(BUF)` and
`len(v) = n` (R11), and at `addr = len(BUF)` the append of R63. Elsewhere R11 and R13 define nothing; this
puts `v` after the first `addr` bytes there are and before what stands from `addr + n` on (DESIGN CHOICE,
log 26: no step of the machine evaluates it). -/
def memWrite (buf : Bytes) (addr n : Nat) (v : Bytes) : Bytes :=
  buf.take addr ++ v ++ buf.drop (addr + n)

/-- `xor(a, b)` for sequences of equal length (R11). The block step faults before it evaluates this on
unequal lengths (log 18). -/
def xorBytes (a b : Bytes) : Bytes :=
  List.zipWith (· ^^^ ·) a b

/-- The cells of a buffer as (address, byte) pairs, the first at address `a` (R60; log 10). -/
def cellsFrom (a : Nat) : Bytes → List Host.Cell
  | [] => []
  | b :: rest => (a, b) :: cellsFrom (a + 1) rest

/-- The canonical form of a list of cells: addresses strictly rising. An unlisted address holds no value,
so no entry can equal what an unlisted address reads as. -/
def cellsWf : List Host.Cell → Bool
  | [] => true
  | [_] => true
  | c :: d :: rest => decide (c.1 < d.1) && cellsWf (d :: rest)

/-- The memory of the machine is in canonical form and within the hardware's capacities (R7, R21 to R25,
R34, R35, R60). -/
def State.memoryWf (c : Capacities) (s : State) : Bool :=
  cellsWf (cellsFrom 0 s.key) && cellsWf (cellsFrom 0 s.iv) && cellsWf (cellsFrom 0 s.inp) &&
    cellsWf (cellsFrom 0 s.work) && cellsWf (cellsFrom 0 s.out) &&
    decide (s.key.length ≤ c.keyMax) && decide (s.iv.length ≤ c.ivMax) &&
    decide (s.inp.length ≤ c.inMax) && decide (s.work.length ≤ c.outMax) &&
    decide (s.out.length ≤ c.outMax)

/-- What a step of the model answers. -/
abbrev Result := Host.Outcome State Fault Refusal

/-- Error entry with kind `k` (R296): `ERR <- code(k); OUT <- empty; PREV <- none; WORK <- empty;
PHASE <- ERROR`, and nothing else. -/
def errorEntry (k : ModeError) (s : State) : State :=
  { s with err := some k, out := [], prev := none, work := [], phase := .error }

/-- Fault entry with cause `c` (R300): `FCAUSE <- code; OUT <- empty; PHASE <- FAULT`, and nothing else. -/
def faultEntry (c : FaultCause) (s : State) : State :=
  { s with fcause := some c, out := [], phase := .fault }

/-- The effect of an accepted `START` (R273): the four fields of `CMD`, `ERR <- 0`, `OUT <- empty`,
`PHASE <- VALIDATE`. It is also how the host leaves phase ERROR (R298). -/
def startCommand (c : Command) (s : State) : State :=
  { s with cmd := c, err := none, out := [], phase := .validate }

/-- `RESET` (R330): every piece of the machine's state takes its reset value (R38). The host agent's own
fields are not the machine's and stay (log 21). -/
def resetMachine (s : State) : State :=
  { State.reset with turns := s.turns, readData := s.readData }

/-- Why `LOAD`, `SET` or `START` has no step in a phase that is not open (R275, R276). -/
def lockoutReason (p : Phase) : Refusal :=
  if p.busy then .busyLockout else .faultLockout

end Sys2Proof.Machine
end

