-- ==== Sys2Proof/Machine/Cbc.lean ====
section
/-! DEFINITION. The ModeEngine in CBC mode (R190 to R196): the two block steps, the whole-sequence
functions, and the multiplexers of the datapath (R194). -/

namespace Sys2Proof.Machine

/-- `cbc_enc_step(b, k, prev)` (R191): the output block and the new chain value; `none` is `Fail`. -/
def cbcEncStep (bt : BlockTransform) (b key prev : Bytes) : Option (Bytes × Bytes) :=
  match bt.E (xorBytes b prev) key with
  | none => none
  | some c => some (c, c)

/-- `cbc_dec_step(c, k, prev)` (R192): the output block and the new chain value, which is the input
block; `none` is `Fail`. -/
def cbcDecStep (bt : BlockTransform) (c key prev : Bytes) : Option (Bytes × Bytes) :=
  match bt.D c key with
  | none => none
  | some d => some (xorBytes d prev, c)

/-- Thread the chain value through the blocks in index order; `none` (`Fail`) if any step fails. -/
def chainBlocks (f : Bytes → Bytes → Option (Bytes × Bytes)) :
    List Bytes → Bytes → Option (List Bytes)
  | [], _ => some []
  | b :: rest, prev =>
    match f b prev with
    | none => none
    | some (o, prev') =>
      match chainBlocks f rest prev' with
      | none => none
      | some os => some (o :: os)

/-- `cbc_encrypt(blocks, k, iv)` (R195). -/
def cbcEncrypt (bt : BlockTransform) (blocks : List Bytes) (key iv : Bytes) : Option (List Bytes) :=
  chainBlocks (fun b prev => cbcEncStep bt b key prev) blocks iv

/-- `cbc_decrypt(cblocks, k, iv)` (R196). -/
def cbcDecrypt (bt : BlockTransform) (cblocks : List Bytes) (key iv : Bytes) : Option (List Bytes) :=
  chainBlocks (fun c prev => cbcDecStep bt c key prev) cblocks iv

/-- The multiplexer in front of the transform: `XIN = xor(SLICE, PREV)` for CBC encrypt, `SLICE`
otherwise (R194). -/
def xinMux (op : Op) (mode : Mode) (sliceWire prev : Bytes) : Bytes :=
  match mode, op with
  | .cbc, .encrypt => xorBytes sliceWire prev
  | .cbc, .decrypt => sliceWire
  | .ecb, _ => sliceWire

/-- The multiplexer behind the transform: `BOUT = xor(XOUT, PREV)` for CBC decrypt, `XOUT` otherwise
(R194). -/
def boutMux (op : Op) (mode : Mode) (xout prev : Bytes) : Bytes :=
  match mode, op with
  | .cbc, .encrypt => xout
  | .cbc, .decrypt => xorBytes xout prev
  | .ecb, _ => xout

/-- The block-chain multiplexer on a finished block: the next `PREV` (R194). -/
def chainMux (op : Op) (mode : Mode) (sliceWire xout : Bytes) : Option Bytes :=
  match mode, op with
  | .cbc, .encrypt => some xout
  | .cbc, .decrypt => some sliceWire
  | .ecb, _ => none

end Sys2Proof.Machine
end

