-- ==== Sys2Proof/Machine/Ecb.lean ====
section
/-! DEFINITION. The ModeEngine in ECB mode (R175 to R178). -/

namespace Sys2Proof.Machine

/-- `ecb_step(op, b, k)` (R176); `none` is `Fail`. -/
def ecbStep (bt : BlockTransform) (op : Op) (b key : Bytes) : Option Bytes :=
  match op with
  | .encrypt => bt.E b key
  | .decrypt => bt.D b key

/-- Apply `f` to every block in index order; `none` (`Fail`) if any answers so, with no partial result. -/
def mapBlocks (f : Bytes → Option Bytes) : List Bytes → Option (List Bytes)
  | [] => some []
  | b :: rest =>
    match f b with
    | none => none
    | some c =>
      match mapBlocks f rest with
      | none => none
      | some cs => some (c :: cs)

/-- `ecb_encrypt(blocks, k)` (R177). -/
def ecbEncrypt (bt : BlockTransform) (blocks : List Bytes) (key : Bytes) : Option (List Bytes) :=
  mapBlocks (fun b => bt.E b key) blocks

/-- `ecb_decrypt(cblocks, k)` (R178). -/
def ecbDecrypt (bt : BlockTransform) (cblocks : List Bytes) (key : Bytes) : Option (List Bytes) :=
  mapBlocks (fun c => bt.D c key) cblocks

end Sys2Proof.Machine
end

