-- ==== Sys2Proof/Machine/ModeConfig.lean ====
section
/-! DEFINITION. ModeConfig validation (R120 to R127). -/

namespace Sys2Proof.Machine

/-- `validate(mode, bs, keylen, iv_opt)`, in the priority R125 fixes: block size, key, then (CBC only)
the IV. The IV enters by its presence and its length only (R120). -/
def validate (mode : Mode) (bs keylen : Nat) (ivOpt : Option Bytes) : Except ModeError Unit :=
  if bs = 0 then .error .invalidConfig
  else if keylen < bs then .error .invalidKey
  else
    match mode with
    | .ecb => .ok ()
    | .cbc =>
      match ivOpt with
      | none => .error .invalidIV
      | some iv => if iv.length = bs then .ok () else .error .invalidIV

end Sys2Proof.Machine
end

