-- ==== Sys2Proof/Machine/Partitioner.lean ====
section
/-! DEFINITION. The Partitioner: the block-slice multiplexer (R161), `toBlocks` (R160), `fromBlocks` (R162). -/

namespace Sys2Proof.Machine

/-- `slice(pm, bs, i) = pm[i*bs : (i+1)*bs]`, defined for `bs > 0` and `(i+1)*bs <= len(pm)` (R161);
`none` outside that domain. -/
def slice (pm : Bytes) (bs i : Nat) : Option Bytes :=
  if 0 < bs ∧ (i + 1) * bs ≤ pm.length then some (memRead pm (i * bs) bs) else none

/-- `toBlocks(pm, bs)`, for `bs > 0` and `len(pm) % bs = 0`: the blocks in index order (R160). Outside that
precondition the whole blocks only, and none for `bs = 0` (DESIGN CHOICE, log 26: no step evaluates it, and
the command functions only after the checks). -/
def toBlocks (pm : Bytes) (bs : Nat) : List Bytes :=
  (List.range (pm.length / bs)).map fun i => memRead pm (i * bs) bs

/-- `fromBlocks(blocks)`: concatenation in order (R162). -/
def fromBlocks (blocks : List Bytes) : Bytes :=
  blocks.flatten

end Sys2Proof.Machine
end

