-- ==== Sys2Proof/Machine/Commands.lean ====
section
/-! DEFINITION. What a command computes: the pure functions of R231 to R234, and the document's `encrypt`
and `decrypt` (R242, R243). The engine of Engine.lean computes the same block by block (R244). -/

namespace Sys2Proof.Machine

/-- The outcome of a command as the host sees it (R230). -/
inductive CommandResult where
  | ok (out : Bytes)
  | err (k : ModeError)
  | fault (c : FaultCause)
  deriving DecidableEq, Repr

/-- The last stage of an encrypt: `Fail` is `TransformFailure`, otherwise reassembly (R231, R232). -/
def encryptTail : Option (List Bytes) → CommandResult
  | none => .err .transformFailure
  | some cbs => .ok (fromBlocks cbs)

/-- The last stage of a decrypt: as an encrypt's, then unpadding when an original length is supplied
(R233, R234, R146). -/
def decryptTail (olenOpt : Option Nat) : Option (List Bytes) → CommandResult
  | none => .err .transformFailure
  | some pbs =>
    match olenOpt with
    | none => .ok (fromBlocks pbs)
    | some n => .ok (unpad (fromBlocks pbs) n)

/-- The two length conditions of a decrypt, in the order of R236 (R233, R234), for `bs > 0`: both commands
evaluate it only after validation (for `bs = 0`, DESIGN CHOICE, log 26). -/
def decryptFault (bs : Nat) (c : Bytes) (olenOpt : Option Nat) : Option FaultCause :=
  if c.length % bs ≠ 0 then some .partitionAssert
  else
    match olenOpt with
    | none => none
    | some n => if c.length < n then some .unpadRange else none

/-- `ENC.ECB(bs, key, P)` (R231). -/
def encEcbResult (bt : BlockTransform) (bs : Nat) (key p : Bytes) : CommandResult :=
  match validate .ecb bs key.length none with
  | .error k => .err k
  | .ok _ => encryptTail (ecbEncrypt bt (toBlocks (pad p bs) bs) key)

/-- `ENC.CBC(bs, key, iv_opt, P)` (R232). Validation has made the IV present (R123), so the empty
default of `getD` is never taken (DESIGN CHOICE, log 26). -/
def encCbcResult (bt : BlockTransform) (bs : Nat) (key : Bytes) (ivOpt : Option Bytes) (p : Bytes) :
    CommandResult :=
  match validate .cbc bs key.length ivOpt with
  | .error k => .err k
  | .ok _ => encryptTail (cbcEncrypt bt (toBlocks (pad p bs) bs) key (ivOpt.getD []))

/-- `DEC.ECB(bs, key, C, olen_opt)` (R233). -/
def decEcbResult (bt : BlockTransform) (bs : Nat) (key c : Bytes) (olenOpt : Option Nat) :
    CommandResult :=
  match validate .ecb bs key.length none with
  | .error k => .err k
  | .ok _ =>
    match decryptFault bs c olenOpt with
    | some f => .fault f
    | none => decryptTail olenOpt (ecbDecrypt bt (toBlocks c bs) key)

/-- `DEC.CBC(bs, key, iv_opt, C, olen_opt)` (R234); `getD` as in `encCbcResult`. -/
def decCbcResult (bt : BlockTransform) (bs : Nat) (key : Bytes) (ivOpt : Option Bytes) (c : Bytes)
    (olenOpt : Option Nat) : CommandResult :=
  match validate .cbc bs key.length ivOpt with
  | .error k => .err k
  | .ok _ =>
    match decryptFault bs c olenOpt with
    | some f => .fault f
    | none => decryptTail olenOpt (cbcDecrypt bt (toBlocks c bs) key (ivOpt.getD []))

/-- The document's `encrypt` (R242). -/
def encrypt (bt : BlockTransform) (mode : Mode) (p key : Bytes) (ivOpt : Option Bytes) (bs : Nat) :
    CommandResult :=
  match mode with
  | .ecb => encEcbResult bt bs key p
  | .cbc => encCbcResult bt bs key ivOpt p

/-- The document's `decrypt` (R243). -/
def decrypt (bt : BlockTransform) (mode : Mode) (c key : Bytes) (ivOpt : Option Bytes) (bs : Nat)
    (olenOpt : Option Nat) : CommandResult :=
  match mode with
  | .ecb => decEcbResult bt bs key c olenOpt
  | .cbc => decCbcResult bt bs key ivOpt c olenOpt

/-- The function of R231 to R234 that the instruction selects, on the operands the state holds, with
`iv_opt` and `olen_opt` formed from its flags (R93, R244). -/
def commandResult (bt : BlockTransform) (i : Instr) (s : State) : CommandResult :=
  match i with
  | .encEcb _ _ => encEcbResult bt s.blksz s.key s.inp
  | .decEcb _ olp => decEcbResult bt s.blksz s.key s.inp (if olp then some s.origlen else none)
  | .encCbc ivp _ => encCbcResult bt s.blksz s.key (if ivp then some s.iv else none) s.inp
  | .decCbc ivp olp =>
    decCbcResult bt s.blksz s.key (if ivp then some s.iv else none) s.inp
      (if olp then some s.origlen else none)

/-- What a call of the document's API answers once `WAIT` has ended (R100): the result in DONE, the error
kind in ERROR, and nothing in FAULT. A busy or idle machine has no call to answer. -/
def callResult (s : State) : Option CommandResult :=
  match s.phase with
  | .idle => none
  | .validate => none
  | .prep => none
  | .process => none
  | .finish => none
  | .done => some (.ok s.out)
  | .error => s.err.map CommandResult.err
  | .fault => none

end Sys2Proof.Machine
end

