-- ==== Sys2Proof/Machine/Engine.lean ====
section
/-! DEFINITION. The engine state machine (R235 to R240), and the next step of a command, which every
instruction's meaning is one line over. -/

namespace Sys2Proof.Machine

/-- The VALIDATE step (R235). -/
def validateStep (s : State) : Result :=
  match validate s.cmd.mode s.blksz s.key.length s.ivOpt with
  | .ok _ => .next { s with phase := .prep }
  | .error k => .next (errorEntry k s)

/-- The end of a PREP step that entered no fault, with `w` the new content of `WORK` (R236, R193). -/
def beginBlocks (w : Bytes) (s : State) : State :=
  { s with
    work := w
    nblk := w.length / s.blksz
    bidx := 0
    out := []
    prev := match s.cmd.mode with
      | .cbc => some s.iv
      | .ecb => none
    phase := .process }

/-- The PREP step (R236). -/
def prepStep (s : State) : Result :=
  if s.blksz = 0 then .fault .blockSizeZero
  else
    match s.cmd.op with
    | .encrypt => .next (beginBlocks (pad s.inp s.blksz) s)
    | .decrypt =>
      if s.inp.length % s.blksz ≠ 0 then .next (faultEntry .partitionAssert s)
      else if s.cmd.olp = true ∧ s.inp.length < s.origlen then .next (faultEntry .unpadRange s)
      else .next (beginBlocks s.inp s)

/-- A CBC block step in either direction (R237). -/
def cbcStep (bt : BlockTransform) (op : Op) (b key prev : Bytes) : Option (Bytes × Bytes) :=
  match op with
  | .encrypt => cbcEncStep bt b key prev
  | .decrypt => cbcDecStep bt b key prev

/-- `block_step(op, mode, b, k, prev)` (R237): `Fail` (`none`), or the output block and the next `PREV`.
In CBC the chain value must be there (R33) and as long as the block (R11): otherwise the step is
undefined, and the model faults (log 8). -/
def blockStep (bt : BlockTransform) (op : Op) (mode : Mode) (b key : Bytes) (prev : Option Bytes) :
    Except Fault (Option (Bytes × Option Bytes)) :=
  match mode with
  | .ecb => .ok ((ecbStep bt op b key).map fun o => (o, none))
  | .cbc =>
    match prev with
    | none => .error .prevAbsent
    | some v =>
      if v.length = b.length then .ok ((cbcStep bt op b key v).map fun r => (r.1, some r.2))
      else .error .chainWidth

/-- A block is done: it is appended to `OUT` (R163), `PREV` takes its next value and `BIDX` counts on
(R238). -/
def blockDone (o : Bytes) (prev' : Option Bytes) (s : State) : State :=
  { s with out := s.out ++ o, prev := prev', bidx := s.bidx + 1 }

/-- The loop exit (R238). -/
def loopExit (s : State) : State :=
  { s with prev := none, work := [], phase := .finish }

/-- The PROCESS step (R238): one block, or the loop exit. -/
def processStep (bt : BlockTransform) (s : State) : Result :=
  if s.bidx < s.nblk then
    match slice s.work s.blksz s.bidx with
    | none => .fault .sliceRange
    | some b =>
      match blockStep bt s.cmd.op s.cmd.mode b s.key s.prev with
      | .error f => .fault f
      | .ok none => .next (errorEntry .transformFailure s)
      | .ok (some (o, prev')) => .next (blockDone o prev' s)
  else if s.bidx = s.nblk then .next (loopExit s)
  else .fault .blockIndexRange

/-- The FINISH step (R239). -/
def finishStep (s : State) : Result :=
  if s.cmd.op = .decrypt ∧ s.cmd.olp = true then
    if s.origlen ≤ s.out.length then
      .next { s with out := unpad s.out s.origlen, phase := .done }
    else .fault .unpadPrecondition
  else .next { s with phase := .done }

/-- The engine's step, dispatched on `PHASE`; in a quiescent phase it has none and changes nothing
(R240). -/
def engineStep (bt : BlockTransform) (s : State) : Result :=
  match s.phase with
  | .idle => .next s
  | .validate => validateStep s
  | .prep => prepStep s
  | .process => processStep bt s
  | .finish => finishStep s
  | .done => .next s
  | .error => .next s
  | .fault => .next s

/-- The next step of command `c` (log 7). In an open phase (IDLE, DONE, ERROR) the command is started
(R273). While the engine runs this command, the step is the engine's own (R235 to R239). A command
other than the running one is locked out (R275), and FAULT is left by no command (R276, R301). -/
def commandStep (bt : BlockTransform) (c : Command) (s : State) : Result :=
  if s.phase.hostOpen then .next (startCommand c s)
  else if s.phase.busy = true ∧ s.cmd = c then engineStep bt s
  else .refused (lockoutReason s.phase)

/-- The next step of an instruction for an arbitrary transform: what `exec` is at the implementation's
transform. R20 makes the transform an argument of the step relation; this is that argument. -/
def execWith (bt : BlockTransform) (i : Instr) (s : State) : Result :=
  commandStep bt (Command.ofInstr i) s

end Sys2Proof.Machine
end

