-- ==== Sys2Proof/Machine/CbcCommands.lean ====
section
/-! DEFINITION. The meanings of `ENC.CBC` and `DEC.CBC`: the next step of the command, from its START
through VALIDATE, PREP, one PROCESS step a block, and FINISH. -/

namespace Sys2Proof.Machine

/-- `ENC.CBC` (R232). `OLP` is ignored by the steps (R232). -/
def execEncCbc (ivp olp : Bool) (s : State) : Result :=
  commandStep Config.transform { op := .encrypt, mode := .cbc, ivp := ivp, olp := olp } s

/-- `DEC.CBC` (R234). -/
def execDecCbc (ivp olp : Bool) (s : State) : Result :=
  commandStep Config.transform { op := .decrypt, mode := .cbc, ivp := ivp, olp := olp } s

end Sys2Proof.Machine
end

