-- ==== Sys2Proof/Machine/EcbCommands.lean ====
section
/-! DEFINITION. The meanings of `ENC.ECB` and `DEC.ECB`: the next step of the command, from its START
through VALIDATE, PREP, one PROCESS step a block, and FINISH. -/

namespace Sys2Proof.Machine

/-- `ENC.ECB` (R231). Both flags are ignored by the steps (R124, R231). -/
def execEncEcb (ivp olp : Bool) (s : State) : Result :=
  commandStep Config.transform { op := .encrypt, mode := .ecb, ivp := ivp, olp := olp } s

/-- `DEC.ECB` (R233). `IVP` is ignored by the steps (R124). -/
def execDecEcb (ivp olp : Bool) (s : State) : Result :=
  commandStep Config.transform { op := .decrypt, mode := .ecb, ivp := ivp, olp := olp } s

end Sys2Proof.Machine
end

