-- ==== Sys2Proof/Machine/Dispatch.lean ====
section
/-! DEFINITION. One arm per instruction: the next step of that command. -/

namespace Sys2Proof.Machine

def exec (i : Instr) (s : State) : Host.Outcome State Fault Refusal :=
  match i with
  | .encEcb ivp olp => Sys2Proof.Machine.execEncEcb ivp olp s
  | .decEcb ivp olp => Sys2Proof.Machine.execDecEcb ivp olp s
  | .encCbc ivp olp => Sys2Proof.Machine.execEncCbc ivp olp s
  | .decCbc ivp olp => Sys2Proof.Machine.execDecCbc ivp olp s

end Sys2Proof.Machine
end

