-- ==== Sys2Proof/Machine/HostMoves.lean ====
section
/-! DEFINITION. The moves of the host (R270 to R276, R330) and the turns of the two agents (R14, R68). The
capacities and the meaning of the instructions are arguments here (R20); Step.lean supplies the
implementation's. -/

namespace Sys2Proof.Machine

/-- Replace a buffer if the phase is open and the sequence fits (R271). -/
def loadBuffer (capacity : Nat) (bytes : Bytes) (store : State → State) (s : State) : Result :=
  if s.phase.hostOpen then
    if bytes.length ≤ capacity then .next (store s) else .refused .outOfRange
  else .refused (lockoutReason s.phase)

/-- `LOAD` through a port, by number (R95, R271). -/
def hostLoad (c : Capacities) (port : BitVec 4) (bytes : Bytes) (s : State) : Result :=
  match Reg.ofNumber port with
  | none => .refused .reservedRegister
  | some .keyport => loadBuffer c.keyMax bytes (fun s => { s with key := bytes }) s
  | some .ivport => loadBuffer c.ivMax bytes (fun s => { s with iv := bytes }) s
  | some .inport => loadBuffer c.inMax bytes (fun s => { s with inp := bytes }) s
  | some _ => .refused .noSuchAccess

/-- Write an operand register if the phase is open and the value is in range (R272). -/
def setRegister (inRange : Bool) (store : State → State) (s : State) : Result :=
  if s.phase.hostOpen then
    if inRange then .next (store s) else .refused .outOfRange
  else .refused (lockoutReason s.phase)

/-- `SET` of a register, by number (R95, R272). A write of `CMD` is `START`, a move of its own (log 19). -/
def hostSet (c : Capacities) (reg : BitVec 4) (n : Nat) (s : State) : Result :=
  match Reg.ofNumber reg with
  | none => .refused .reservedRegister
  | some .blksz => setRegister (decide (n ≤ c.bsMax)) (fun s => { s with blksz := n }) s
  | some .origlen => setRegister (decide (n < 2 ^ c.lenW)) (fun s => { s with origlen := n }) s
  | some _ => .refused .noSuchAccess

/-- `START w` (R273): in an open phase the word is decoded, once (R71), and the instruction it stands for
takes its first step. -/
def hostStart (ex : Instr → State → Result) (w : BitVec 8) (s : State) : Result :=
  if s.phase.hostOpen then
    match decode [w] with
    | .ok (i, _) => ex i s
    | .error _ => .refused .reservedCommandWord
  else .refused (lockoutReason s.phase)

/-- A read hands a value to the host and changes nothing of the machine (R65, R274). -/
def deliver (v : ReadData) (s : State) : State :=
  { s with readData := some v }

/-- In which phases a register or port may be read: `STATUS` always, `OUTLEN` and `OUT` in DONE, the
others when not busy (R95, R274). `none` means the read is permitted. -/
def readRefusal (p : Phase) : Reg → Option Refusal
  | .status => none
  | .outlen => if p = .done then none else if p.busy then some .busyLockout else some .noResult
  | .outport => if p = .done then none else if p.busy then some .busyLockout else some .noResult
  | .cmd => if p.busy then some .busyLockout else none
  | .err => if p.busy then some .busyLockout else none
  | .fcause => if p.busy then some .busyLockout else none
  | .blksz => if p.busy then some .busyLockout else none
  | .origlen => if p.busy then some .busyLockout else none
  | .keylen => if p.busy then some .busyLockout else none
  | .ivlen => if p.busy then some .busyLockout else none
  | .inlen => if p.busy then some .busyLockout else none
  | .keyport => some .noSuchAccess
  | .ivport => some .noSuchAccess
  | .inport => some .noSuchAccess

/-- `READ` of a register or port, by number (R95, R274). -/
def hostRead (reg : BitVec 4) (s : State) : Result :=
  match Reg.ofNumber reg with
  | none => .refused .reservedRegister
  | some r =>
    match readRefusal s.phase r, s.regValue r with
    | some reason, _ => .refused reason
    | none, some v => .next (deliver v s)
    | none, none => .refused .noSuchAccess

/-- A move of the host (R270). -/
def hostMove (c : Capacities) (ex : Instr → State → Result) (m : HostMove) (s : State) : Result :=
  match m with
  | .load port bytes => hostLoad c port bytes s
  | .set reg n => hostSet c reg n s
  | .start w => hostStart ex w s
  | .read reg => hostRead reg s
  | .reset => .next (resetMachine s)

/-- A turn of the engine: the next step of the command in `CMD` while the engine is busy; in a quiescent
phase it has no enabled step and changes nothing (R240; log 3). -/
def engineTurn (ex : Instr → State → Result) (s : State) : Result :=
  if s.phase.busy then ex s.cmd.instr s else .next s

/-- One poll of `WAIT` (R100), `rest` being the turns after it: `READ STATUS`; while it shows `BUSY` the
engine gets a turn and the host polls again (log 15). -/
def waitTurn (rest : List Turn) (s : State) : State :=
  { deliver (.number (statusOf s.phase).toNat) s with
    turns := if s.phase.busy then .engine :: .wait :: rest else rest }

/-- The next turn of the interleaving. With no turn listed the engine moves (log 3). -/
def takeTurn (c : Capacities) (ex : Instr → State → Result) (s : State) : Result :=
  match s.turns with
  | [] => engineTurn ex s
  | .engine :: rest => engineTurn ex { s with turns := rest }
  | .host m :: rest => hostMove c ex m { s with turns := rest }
  | .wait :: rest => .next (waitTurn rest s)

/-- Put a `START` of a command word first among the turns (log 9). -/
def presentStart (w : BitVec 8) (s : State) : State :=
  { s with turns := .host (.start w) :: s.turns }

/-- The host moves of the document's `encrypt` call (R100), in the order R100 lists them. -/
def encryptScript (mode : Mode) (p key : Bytes) (ivOpt : Option Bytes) (bs : Nat) : List Turn :=
  [.host (.set Reg.blksz.number bs), .host (.load Reg.keyport.number key)]
    ++ (match ivOpt with
      | none => []
      | some v => [.host (.load Reg.ivport.number v)])
    ++ [.host (.load Reg.inport.number p),
      .host (.start (encode (instrOfFields .encrypt mode ivOpt.isSome false))), .wait]

/-- The host moves of the document's `decrypt` call (R100). -/
def decryptScript (mode : Mode) (c key : Bytes) (ivOpt : Option Bytes) (bs : Nat)
    (olenOpt : Option Nat) : List Turn :=
  [.host (.set Reg.blksz.number bs), .host (.load Reg.keyport.number key)]
    ++ (match ivOpt with
      | none => []
      | some v => [.host (.load Reg.ivport.number v)])
    ++ [.host (.load Reg.inport.number c)]
    ++ (match olenOpt with
      | none => []
      | some n => [.host (.set Reg.origlen.number n)])
    ++ [.host (.start (encode (instrOfFields .decrypt mode ivOpt.isSome olenOpt.isSome))), .wait]

end Sys2Proof.Machine
end

