-- ==== Sys2Proof/Machine/Step.lean ====
section
/-! DEFINITION. The step of the machine at the implementation's parameters, and the placing of an
instruction for the next step. -/

namespace Sys2Proof.Machine

/-- One step: the next turn of the two agents (R14, R68). -/
def step (s : State) : Host.Outcome State Fault Refusal :=
  takeTurn Config.capacities exec s

/-- `s` with the instruction whose bits are `w` presented to the machine: a `START` of its word is the
next turn, the only way a command reaches this hardware (R71, R90; log 9). -/
def State.withFetchWord (s : State) (nbits w : Nat) : State :=
  presentStart (tableWordByte nbits w) s

end Sys2Proof.Machine
end

