-- ==== Sys2Proof/Safety.lean ====
section
/-! DEFINITION. What a good state and a good run are, in the terms the statements use. -/

namespace Sys2Proof.Machine

/-- Clauses (a) to (e) of R37. Clause (a)'s agreement of `STATUS` with `PHASE` holds by definition:
`STATUS` is computed from `PHASE` (R27). Clause (f) is about steps: `SameOperands` below. -/
structure StateLaws (s : State) : Prop where
  err_iff : s.err ≠ none ↔ s.phase = .error
  fcause_iff : s.fcause ≠ none ↔ s.phase = .fault
  blksz_pos : s.phase = .process → 0 < s.blksz
  key_ge : s.phase = .process → s.blksz ≤ s.key.length
  work_length : s.phase = .process → s.work.length = s.nblk * s.blksz
  bidx_le : s.phase = .process → s.bidx ≤ s.nblk
  out_length : s.phase = .process → s.out.length = s.bidx * s.blksz
  prev_cbc : s.phase = .process → s.cmd.mode = .cbc → ∃ v, s.prev = some v ∧ v.length = s.blksz
  prev_ecb : s.phase = .process → s.cmd.mode = .ecb → s.prev = none
  prev_outside : s.phase ≠ .process → s.prev = none
  work_outside : s.phase ≠ .process → s.work = []
  out_empty : (s.phase = .idle ∨ s.phase = .validate ∨ s.phase = .prep ∨ s.phase = .error ∨
    s.phase = .fault) → s.out = []

/-- The invariant of the machine: R37, the ranges and capacities of R21 to R25, R34 and R35, and what
validation and PREP have established for the steps after them (R236, R239). -/
structure Inv (c : Capacities) (s : State) : Prop extends StateLaws s where
  blksz_le : s.blksz ≤ c.bsMax
  key_le : s.key.length ≤ c.keyMax
  iv_le : s.iv.length ≤ c.ivMax
  inp_le : s.inp.length ≤ c.inMax
  origlen_lt : s.origlen < 2 ^ c.lenW
  work_le : s.work.length ≤ c.outMax
  out_le : s.out.length ≤ c.outMax
  validated : (s.phase = .prep ∨ s.phase = .process ∨ s.phase = .finish) →
    validate s.cmd.mode s.blksz s.key.length s.ivOpt = .ok ()
  unpad_process : s.phase = .process → s.cmd.op = .decrypt → s.cmd.olp = true →
    s.origlen ≤ s.work.length
  unpad_finish : s.phase = .finish → s.cmd.op = .decrypt → s.cmd.olp = true →
    s.origlen ≤ s.out.length

/-- The operands of a command and `CMD` are the same in both states (R37 (f), R334). -/
def SameOperands (s t : State) : Prop :=
  t.blksz = s.blksz ∧ t.key = s.key ∧ t.iv = s.iv ∧ t.inp = s.inp ∧ t.origlen = s.origlen ∧ t.cmd = s.cmd

/-- `k` steps, stopping at the first fault or refusal. -/
def run : Nat → State → Result
  | 0, s => .next s
  | k + 1, s =>
    match step s with
    | .next t => run k t
    | .fault r => .fault r
    | .refused r => .refused r

/-- The states reached from reset by the moves of the spec: the host may at any time decide which turns
come next (R14, R68). -/
inductive Reachable : State → Prop where
  | reset : Reachable State.reset
  | turns {s : State} (ts : List Turn) : Reachable s → Reachable { s with turns := ts }
  | step {s t : State} : Reachable s → step s = .next t → Reachable t

/-- The state shows the outcome of a command to the host (R230, R244). -/
def Shows (s : State) : CommandResult → Prop
  | .ok v => s.phase = .done ∧ s.out = v ∧ s.err = none ∧ s.fcause = none
  | .err k => s.phase = .error ∧ s.err = some k ∧ s.out = [] ∧ s.fcause = none
  | .fault c => s.phase = .fault ∧ s.fcause = some c ∧ s.out = [] ∧ s.err = none

/-- A turn that is no host move but `READ STATUS` (R244). -/
def Turn.quiet : Turn → Bool
  | .engine => true
  | .host m => decide (m = .read Reg.status.number)
  | .wait => false

/-- The number of blocks of a command on the operands of the state (R32); 0 for `BLKSZ = 0`, where there is
no block because validation fails (DESIGN CHOICE, log 26). -/
def blockCount (i : Instr) (s : State) : Nat :=
  match (Command.ofInstr i).op with
  | .encrypt => ceilDiv s.inp.length s.blksz
  | .decrypt => s.inp.length / s.blksz

/-- All that a command reads: its direction and mode, the block size, the key and the message; in CBC also
`iv_opt`; in a decrypt also `olen_opt` (R93, R124, R231 to R234). An operand a command does not read
shows as `none`. -/
def commandView (i : Instr) (s : State) : Op × Mode × Nat × Bytes × Bytes × Option Bytes × Option Nat :=
  match i with
  | .encEcb _ _ => (.encrypt, .ecb, s.blksz, s.key, s.inp, none, none)
  | .decEcb _ olp => (.decrypt, .ecb, s.blksz, s.key, s.inp, none, if olp then some s.origlen else none)
  | .encCbc ivp _ => (.encrypt, .cbc, s.blksz, s.key, s.inp, if ivp then some s.iv else none, none)
  | .decCbc ivp olp =>
    (.decrypt, .cbc, s.blksz, s.key, s.inp, if ivp then some s.iv else none,
      if olp then some s.origlen else none)

end Sys2Proof.Machine
end

