-- ==== Sys2Proof/WellFormed.lean ====
section
/-! DEFINITION. What the spec requires of a written command, of a command word and of a host move before
any phase is looked at. -/

namespace Sys2Proof

/-- Every instruction term is well formed: its two operands are single bits, legal in every combination
(R92). What can be ill formed is a word, a written command or a move, checked below. -/
def Instr.wellFormed : Instr → Bool
  | .encEcb _ _ => true
  | .decEcb _ _ => true
  | .encCbc _ _ => true
  | .decCbc _ _ => true

/-- A command word is well formed when its reserved bits 7:4 are 0b0000 (R91, R94). -/
def commandWordWellFormed (w : BitVec 8) : Bool :=
  w.extractLsb' 4 4 == 0#4

/-- A written command has each flag at most once (R98). -/
def CommandText.wellFormed (t : CommandText) : Bool :=
  decide (t.flags.count .iv ≤ 1 ∧ t.flags.count .olen ≤ 1)

/-- The column "further condition" of R270, with the access column of R95: which moves some phase
permits at all. `SET` names `BLKSZ` (0x4) or `ORIGLEN` (0x5); `LOAD` a load port (0xA to 0xC); `READ`
none of the load ports and no reserved number. -/
def HostMove.wellFormed (c : Capacities) : HostMove → Bool
  | .load port s =>
      if port = 0xA#4 then decide (s.length ≤ c.keyMax)
      else if port = 0xB#4 then decide (s.length ≤ c.ivMax)
      else if port = 0xC#4 then decide (s.length ≤ c.inMax)
      else false
  | .set reg n =>
      if reg = 0x4#4 then decide (n ≤ c.bsMax)
      else if reg = 0x5#4 then decide (n < 2 ^ c.lenW)
      else false
  | .start w => commandWordWellFormed w
  | .read reg => decide (reg.toNat < 0xA) || decide (reg = 0xD#4)
  | .reset => true

end Sys2Proof
end

