-- ==== Sys2Proof/Certificates/Slice0/Obligations.lean ====
section
/-! DEFINITION. The statements about the model, for the provers. A rule R<n> is a numbered rule of spec/.
`exec` and `step` are at the implementation's own transform and capacities, constants without a body, so
what is said of them holds for every transform and every capacities the spec allows.

`[D<n>]` marks what rests on a decision of the spec's own (92_eei_decisions.md), `[derived]` what the spec
itself infers from its other rules. -/

open Sys2Proof Sys2Proof.Machine

/-! ## Encoding -/

/-- R91, R92: every command decodes from the word its encoding gives, whatever bytes follow it. [D7] -/
def Obligations.EncodedCommandDecodesToItself : Prop :=
  ∀ (i : Instr) (rest : Bytes), i.wellFormed = true → decode (encode i :: rest) = .ok (i, rest)

/-- R91, R92, R94: a word is a command exactly when its bits 7:4 are zero, it is then the word of that
command, and every other word is rejected as reserved. [D7, D8] -/
def Obligations.WordIsCommandExactlyWhenReservedBitsAreZero : Prop :=
  ∀ w : BitVec 8,
    (commandWordWellFormed w = true → ∃ i, decodeWord w = .ok i ∧ encode i = w) ∧
      (commandWordWellFormed w = false → decodeWord w = .error .reservedBits)

/-- R92: words of the opcode map, written out, and the commands they stand for. [D7] -/
def Obligations.OpcodeMapWordsDecode : Prop :=
  decodeTableWord 8 0x00 = some (.encEcb false false) ∧
    decodeTableWord 8 0x01 = some (.decEcb false false) ∧
    decodeTableWord 8 0x02 = some (.encCbc false false) ∧
    decodeTableWord 8 0x03 = some (.decCbc false false) ∧
    decodeTableWord 8 0x06 = some (.encCbc true false) ∧
    decodeTableWord 8 0x09 = some (.decEcb false true) ∧
    decodeTableWord 8 0x0F = some (.decCbc true true) ∧
    decodeTableWord 8 0x10 = none ∧ decodeTableWord 8 0xFF = none

/-- R98: the word of a written command is `OP + 2*MODE + 4*IVP + 8*OLP`, and it decodes to the command
written. [D27] -/
def Obligations.WrittenCommandAssemblesToItsWord : Prop :=
  ∀ t : CommandText, t.wellFormed = true →
    decodeTableWord 8 t.word = some t.instr ∧ (encode t.instr).toNat = t.word

/-- R95: the fourteen registers and ports have the numbers 0x0 to 0xD of the table, each number names its own
register only, and 0xE and 0xF name none. [D6] -/
def Obligations.RegisterNumbersNameTheRegisters : Prop :=
  (Reg.cmd.number = 0x0#4 ∧ Reg.status.number = 0x1#4 ∧ Reg.err.number = 0x2#4 ∧
      Reg.fcause.number = 0x3#4 ∧ Reg.blksz.number = 0x4#4 ∧ Reg.origlen.number = 0x5#4 ∧
      Reg.keylen.number = 0x6#4 ∧ Reg.ivlen.number = 0x7#4 ∧ Reg.inlen.number = 0x8#4 ∧
      Reg.outlen.number = 0x9#4 ∧ Reg.keyport.number = 0xA#4 ∧ Reg.ivport.number = 0xB#4 ∧
      Reg.inport.number = 0xC#4 ∧ Reg.outport.number = 0xD#4) ∧
    (∀ r : Reg, Reg.ofNumber r.number = some r) ∧
    (∀ n : BitVec 4, ∀ r, Reg.ofNumber n = some r → r.number = n) ∧
    Reg.ofNumber 0xE#4 = none ∧ Reg.ofNumber 0xF#4 = none

/-! ## A step runs the decoded command -/

/-- When the host presents a word in an open phase and its bytes decode to a well-formed command, the step
is that command's `exec`, with the turn taken off the list (R71, R273). [D7, D18] -/
def Obligations.StepRunsDecodedCommand : Prop :=
  ∀ (s : State) (w : BitVec 8) (i : Instr) (rest : Bytes) (ts : List Turn),
    s.turns = .host (.start w) :: ts → s.phase.hostOpen = true →
      decode [w] = .ok (i, rest) → i.wellFormed = true →
        step s = exec i { s with turns := ts }

/-- A turn of the engine is `exec` of the command `CMD` holds while the engine is busy, and changes nothing
in a quiescent phase (R240); with no turn listed the engine moves (the model's choice, log 3). [D17] -/
def Obligations.EngineTurnRunsTheCommandRegister : Prop :=
  (∀ s : State, s.turns = [] → s.phase.busy = true → step s = exec s.cmd.instr s) ∧
    (∀ (s : State) (ts : List Turn), s.turns = .engine :: ts → s.phase.busy = true →
      step s = exec s.cmd.instr { s with turns := ts }) ∧
    (∀ s : State, s.turns = [] → s.phase.busy = false → step s = .next s) ∧
    (∀ (s : State) (ts : List Turn), s.turns = .engine :: ts → s.phase.busy = false →
      step s = .next { s with turns := ts })

/-! ## The commands, step by step -/

/-- R273: in an open phase every command starts: `CMD` takes its four fields, `ERR` is cleared, `OUT` is
emptied, the engine goes to VALIDATE, and nothing else changes. [D7, D26] -/
def Obligations.EveryCommandStartsInAnOpenPhase : Prop :=
  ∀ (i : Instr) (s : State), s.phase.hostOpen = true →
    exec i s = .next { s with
      cmd := Command.ofInstr i
      err := none
      out := []
      phase := .validate }

/-- R273 whole: what a presented word does in an open phase, bit by bit, and that it is refused in every
other phase and when bits 7:4 are not zero. [D7, D8, D26] -/
def Obligations.StartWritesTheCommandWordOrIsRefused : Prop :=
  ∀ (s : State) (w : BitVec 8) (ts : List Turn), s.turns = .host (.start w) :: ts →
    (s.phase.hostOpen = true → commandWordWellFormed w = true →
      step s = .next { s with
        turns := ts
        cmd := {
          op := if w.getLsbD 0 then .decrypt else .encrypt
          mode := if w.getLsbD 1 then .cbc else .ecb
          ivp := w.getLsbD 2
          olp := w.getLsbD 3 }
        err := none
        out := []
        phase := .validate }) ∧
      ((s.phase.hostOpen = false ∨ commandWordWellFormed w = false) → ∃ r, step s = .refused r)

/-- A command other than the running one is locked out while the engine is busy, and every command is in
phase FAULT (R273, R275, R276). [D18, D26; that `exec` is a command's next step is log 7] -/
def Obligations.CommandIsLockedOutWhileAnotherRunsAndInFault : Prop :=
  (∀ (i : Instr) (s : State), s.phase.busy = true → s.cmd ≠ Command.ofInstr i →
    exec i s = .refused .busyLockout) ∧
    ∀ (i : Instr) (s : State), s.phase = .fault → exec i s = .refused .faultLockout

/-- R121 to R123, R125: which error validation reports, and when it passes. [D11, D12] -/
def Obligations.ValidationReportsTheFirstFailingCheck : Prop :=
  ∀ (mode : Mode) (bs keylen : Nat) (ivOpt : Option Bytes),
    (validate mode bs keylen ivOpt = .error .invalidConfig ↔ bs = 0) ∧
      (validate mode bs keylen ivOpt = .error .invalidKey ↔ bs ≠ 0 ∧ keylen < bs) ∧
      (validate mode bs keylen ivOpt = .error .invalidIV ↔
        bs ≠ 0 ∧ bs ≤ keylen ∧ mode = .cbc ∧ ∀ iv, ivOpt = some iv → iv.length ≠ bs) ∧
      (validate mode bs keylen ivOpt = .ok () ↔
        bs ≠ 0 ∧ bs ≤ keylen ∧ (mode = .cbc → ∃ iv, ivOpt = some iv ∧ iv.length = bs)) ∧
      validate mode bs keylen ivOpt ≠ .error .transformFailure

/-- R235: the VALIDATE step of every command, pass and fail. [D17, D19, D20] -/
def Obligations.ValidateStepOfEveryCommand : Prop :=
  ∀ (i : Instr) (s : State), s.phase = .validate → s.cmd = Command.ofInstr i →
    (validate s.cmd.mode s.blksz s.key.length s.ivOpt = .ok () →
      exec i s = .next { s with phase := .prep }) ∧
      ∀ k, validate s.cmd.mode s.blksz s.key.length s.ivOpt = .error k →
        exec i s = .next { s with err := some k, out := [], prev := none, work := [], phase := .error }

/-- R236, R32, R193: the PREP step of the two encrypt commands. `NBLK` is the message length divided by the
block size, rounded up. [D17] -/
def Obligations.PrepStepOfEncryptCommands : Prop :=
  ∀ (ivp olp : Bool) (s : State), s.phase = .prep → 0 < s.blksz →
    (s.cmd = Command.ofInstr (.encEcb ivp olp) →
      exec (.encEcb ivp olp) s = .next { s with
        work := pad s.inp s.blksz
        nblk := ceilDiv s.inp.length s.blksz
        bidx := 0
        out := []
        prev := none
        phase := .process }) ∧
      (s.cmd = Command.ofInstr (.encCbc ivp olp) →
        exec (.encCbc ivp olp) s = .next { s with
          work := pad s.inp s.blksz
          nblk := ceilDiv s.inp.length s.blksz
          bidx := 0
          out := []
          prev := some s.iv
          phase := .process })

/-- R236, R300: the PREP step of the two decrypt commands where it enters no fault. [D15, D16, D17] -/
def Obligations.PrepStepOfDecryptCommands : Prop :=
  ∀ (ivp olp : Bool) (s : State), s.phase = .prep → 0 < s.blksz → s.inp.length % s.blksz = 0 →
    (olp = true → s.origlen ≤ s.inp.length) →
      (s.cmd = Command.ofInstr (.decEcb ivp olp) →
        exec (.decEcb ivp olp) s = .next { s with
          work := s.inp
          nblk := s.inp.length / s.blksz
          bidx := 0
          out := []
          prev := none
          phase := .process }) ∧
        (s.cmd = Command.ofInstr (.decCbc ivp olp) →
          exec (.decCbc ivp olp) s = .next { s with
            work := s.inp
            nblk := s.inp.length / s.blksz
            bidx := 0
            out := []
            prev := some s.iv
            phase := .process })

/-- R300, R236: the two fault entries of a decrypt command, `PartitionAssert` before `UnpadRange`: the
cause, `OUT` emptied, phase FAULT, and nothing else. [D15, D16, D31] -/
def Obligations.DecryptFaultsOnBadLengths : Prop :=
  ∀ (i : Instr) (s : State), s.phase = .prep → s.cmd = Command.ofInstr i → s.cmd.op = .decrypt →
    0 < s.blksz →
      (s.inp.length % s.blksz ≠ 0 →
        exec i s = .next { s with fcause := some .partitionAssert, out := [], phase := .fault }) ∧
        (s.inp.length % s.blksz = 0 → s.cmd.olp = true → s.inp.length < s.origlen →
          exec i s = .next { s with fcause := some .unpadRange, out := [], phase := .fault })

/-- R238, R176: one PROCESS step of the two ECB commands, with `E` for an encrypt and `D` for a decrypt; a
failing transform is the error entry of R296. [D17, D20, D28] -/
def Obligations.ProcessBlockOfEcbCommands : Prop :=
  ∀ (ivp olp : Bool) (s : State), s.phase = .process → s.bidx < s.nblk → 0 < s.blksz →
    (s.bidx + 1) * s.blksz ≤ s.work.length →
      (s.cmd = Command.ofInstr (.encEcb ivp olp) →
        exec (.encEcb ivp olp) s = .next
          (match Config.transform.E (memRead s.work (s.bidx * s.blksz) s.blksz) s.key with
          | some c => { s with out := s.out ++ c, prev := none, bidx := s.bidx + 1 }
          | none => { s with
              err := some .transformFailure, out := [], prev := none, work := [], phase := .error })) ∧
        (s.cmd = Command.ofInstr (.decEcb ivp olp) →
          exec (.decEcb ivp olp) s = .next
            (match Config.transform.D (memRead s.work (s.bidx * s.blksz) s.blksz) s.key with
            | some p => { s with out := s.out ++ p, prev := none, bidx := s.bidx + 1 }
            | none => { s with
                err := some .transformFailure, out := [], prev := none, work := [], phase := .error }))

/-- R238, R191, R194: one PROCESS step of `ENC.CBC`: xor before the transform, and the transform's output is
both the output block and the next chain value. [D17, D20, D28] -/
def Obligations.ProcessBlockOfEncCbc : Prop :=
  ∀ (ivp olp : Bool) (s : State) (v : Bytes), s.phase = .process →
    s.cmd = Command.ofInstr (.encCbc ivp olp) → s.bidx < s.nblk → 0 < s.blksz →
      (s.bidx + 1) * s.blksz ≤ s.work.length → s.prev = some v → v.length = s.blksz →
        exec (.encCbc ivp olp) s = .next
          (match Config.transform.E
              (xorBytes (memRead s.work (s.bidx * s.blksz) s.blksz) v) s.key with
          | some c => { s with out := s.out ++ c, prev := some c, bidx := s.bidx + 1 }
          | none => { s with
              err := some .transformFailure, out := [], prev := none, work := [], phase := .error })

/-- R238, R192, R194, R337: one PROCESS step of `DEC.CBC`: xor after the transform, and the next chain value
is the block that came in. [D17, D20, D28] -/
def Obligations.ProcessBlockOfDecCbc : Prop :=
  ∀ (ivp olp : Bool) (s : State) (v : Bytes), s.phase = .process →
    s.cmd = Command.ofInstr (.decCbc ivp olp) → s.bidx < s.nblk → 0 < s.blksz →
      (s.bidx + 1) * s.blksz ≤ s.work.length → s.prev = some v → v.length = s.blksz →
        exec (.decCbc ivp olp) s = .next
          (match Config.transform.D (memRead s.work (s.bidx * s.blksz) s.blksz) s.key with
          | some d => { s with
              out := s.out ++ xorBytes d v
              prev := some (memRead s.work (s.bidx * s.blksz) s.blksz)
              bidx := s.bidx + 1 }
          | none => { s with
              err := some .transformFailure, out := [], prev := none, work := [], phase := .error })

/-- R238: the loop exit of every command. [D17, D20] -/
def Obligations.LoopExitOfEveryCommand : Prop :=
  ∀ (i : Instr) (s : State), s.phase = .process → s.cmd = Command.ofInstr i → s.bidx = s.nblk →
    exec i s = .next { s with prev := none, work := [], phase := .finish }

/-- R239: the FINISH step of every command: a decrypt with `OLP = 1` is cut to `ORIGLEN` bytes, any other
result is left as it is. [D14, D17] -/
def Obligations.FinishStepOfEveryCommand : Prop :=
  ∀ (i : Instr) (s : State), s.phase = .finish → s.cmd = Command.ofInstr i →
    (s.cmd.op = .encrypt ∨ s.cmd.olp = false → exec i s = .next { s with phase := .done }) ∧
      (s.cmd.op = .decrypt → s.cmd.olp = true → s.origlen ≤ s.out.length →
        exec i s = .next { s with out := s.out.take s.origlen, phase := .done })

/-- The frame of every command's step, at every transform, of which `exec` is the implementation's: what it
leaves unchanged, register by register and byte by byte. Operands, `KEY`, `IV`, `IN` and the host's side
never change; `CMD` is the command's own; `ERR`, `FCAUSE`, `BIDX`, `NBLK`, `PREV` and the bytes of `WORK`
change only in the steps named; a byte of `OUT` changes only where the step starts the command, prepares it,
stores its block, cuts the output or discards it. [D17, D19, D20] -/
def Obligations.CommandStepFrame : Prop :=
  (∀ (i : Instr) (s : State), exec i s = execWith Config.transform i s) ∧
    ∀ (bt : BlockTransform) (i : Instr) (s t : State), execWith bt i s = .next t →
      t.blksz = s.blksz ∧ t.origlen = s.origlen ∧ t.turns = s.turns ∧ t.readData = s.readData ∧
        (∀ a, t.byteAt .key a = s.byteAt .key a) ∧ (∀ a, t.byteAt .iv a = s.byteAt .iv a) ∧
        (∀ a, t.byteAt .inp a = s.byteAt .inp a) ∧
        t.cmd = Command.ofInstr i ∧
        (s.phase.busy = true → t.phase ≠ .error → t.err = s.err) ∧
        (t.phase ≠ .fault → t.fcause = s.fcause) ∧
        (s.phase ≠ .prep → t.nblk = s.nblk) ∧
        (t.phase ≠ .process → t.bidx = s.bidx ∧ t.nblk = s.nblk) ∧
        (t.phase = .fault → t.prev = s.prev ∧ ∀ a, t.byteAt .work a = s.byteAt .work a) ∧
        (s.phase ≠ .prep → s.phase ≠ .process → t.phase ≠ .error → t.prev = s.prev) ∧
        (s.phase ≠ .prep → s.phase ≠ .process → t.phase ≠ .error →
          ∀ a, t.byteAt .work a = s.byteAt .work a) ∧
        (s.phase = .process → t.phase = .process → ∀ a, t.byteAt .work a = s.byteAt .work a) ∧
        (s.phase = .process → t.phase = .process →
          ∀ a, a < s.out.length → t.byteAt .out a = s.byteAt .out a) ∧
        (s.phase = .validate → t.phase = .prep → ∀ a, t.byteAt .out a = s.byteAt .out a) ∧
        (t.phase = .finish → ∀ a, t.byteAt .out a = s.byteAt .out a) ∧
        (s.phase = .finish → ∀ a, a < t.out.length → t.byteAt .out a = s.byteAt .out a)

/-- R63: a PROCESS step that finishes a block stores exactly `BLKSZ` bytes, at offset `BIDX * BLKSZ` of
`OUT`; every byte outside them reads as before. At every transform, of which `exec` is the implementation's.
[derived] -/
def Obligations.BlockIsStoredAtItsOwnOffset : Prop :=
  (∀ (i : Instr) (s : State), exec i s = execWith Config.transform i s) ∧
    ∀ (bt : BlockTransform) (i : Instr) (s t : State), StateLaws s → s.phase = .process →
      s.bidx < s.nblk → execWith bt i s = .next t → t.phase = .process →
        (∃ bout : Bytes, bout.length = s.blksz ∧
          t.out = memWrite s.out (s.bidx * s.blksz) s.blksz bout) ∧
          (∀ a, a < s.bidx * s.blksz ∨ (s.bidx + 1) * s.blksz ≤ a →
            t.byteAt .out a = s.byteAt .out a) ∧
          t.out.length = s.out.length + s.blksz

/-! ## The host's moves -/

/-- R271: a load replaces the whole buffer behind its port, and nothing else changes. [D5, D29] -/
def Obligations.LoadReplacesTheWholeBuffer : Prop :=
  ∀ (s : State) (bytes : Bytes) (ts : List Turn), s.phase.hostOpen = true →
    (s.turns = .host (.load Reg.keyport.number bytes) :: ts →
      bytes.length ≤ Config.capacities.keyMax → step s = .next { s with turns := ts, key := bytes }) ∧
      (s.turns = .host (.load Reg.ivport.number bytes) :: ts →
        bytes.length ≤ Config.capacities.ivMax → step s = .next { s with turns := ts, iv := bytes }) ∧
      (s.turns = .host (.load Reg.inport.number bytes) :: ts →
        bytes.length ≤ Config.capacities.inMax → step s = .next { s with turns := ts, inp := bytes })

/-- R272: a set writes its register and nothing else, and is refused outside its range or in a busy phase or
in FAULT; 0 is in the range of `BLKSZ`. [D29] -/
def Obligations.SetWritesTheRegisterOrIsRefused : Prop :=
  ∀ (s : State) (n : Nat) (ts : List Turn),
    (s.turns = .host (.set Reg.blksz.number n) :: ts →
      (s.phase.hostOpen = true → n ≤ Config.capacities.bsMax →
        step s = .next { s with turns := ts, blksz := n }) ∧
        ((s.phase.hostOpen = false ∨ Config.capacities.bsMax < n) → ∃ r, step s = .refused r)) ∧
      (s.turns = .host (.set Reg.origlen.number n) :: ts →
        (s.phase.hostOpen = true → n < 2 ^ Config.capacities.lenW →
          step s = .next { s with turns := ts, origlen := n }) ∧
          ((s.phase.hostOpen = false ∨ 2 ^ Config.capacities.lenW ≤ n) → ∃ r, step s = .refused r))

/-- R274: which reads answer in which phase, what they hand over, and that no read changes the machine.
[D19; the place a value read goes to is the model's own, log 2, log 22] -/
def Obligations.ReadsDeliverTheRegisters : Prop :=
  ∀ (s : State) (r : Reg) (ts : List Turn), s.turns = .host (.read r.number) :: ts →
    (r = .status → step s = .next { s with
      turns := ts
      readData := some (.number (statusOf s.phase).toNat) }) ∧
      (s.phase = .done → r = .outport → step s = .next { s with
        turns := ts
        readData := some (.bytes s.out) }) ∧
      (s.phase = .done → r = .outlen → step s = .next { s with
        turns := ts
        readData := some (.number s.out.length) }) ∧
      (s.phase ≠ .done → r = .outport ∨ r = .outlen → ∃ q, step s = .refused q) ∧
      (r = .keyport ∨ r = .ivport ∨ r = .inport → ∃ q, step s = .refused q) ∧
      (r ≠ .status → s.phase.busy = true → ∃ q, step s = .refused q) ∧
      (s.phase.busy = false →
        (r = .cmd → step s = .next { s with
          turns := ts, readData := some (.number (encode s.cmd.instr).toNat) }) ∧
        (r = .err → step s = .next { s with
          turns := ts, readData := some (.number (errCode s.err).toNat) }) ∧
        (r = .fcause → step s = .next { s with
          turns := ts, readData := some (.number (fcauseCode s.fcause).toNat) }) ∧
        (r = .blksz → step s = .next { s with turns := ts, readData := some (.number s.blksz) }) ∧
        (r = .origlen → step s = .next { s with turns := ts, readData := some (.number s.origlen) }) ∧
        (r = .keylen → step s = .next { s with turns := ts, readData := some (.number s.key.length) }) ∧
        (r = .ivlen → step s = .next { s with turns := ts, readData := some (.number s.iv.length) }) ∧
        (r = .inlen → step s = .next { s with
          turns := ts, readData := some (.number s.inp.length) }))

/-- R275: while the engine is busy the only host moves with a step are `READ STATUS` and `RESET`. [D18] -/
def Obligations.BusyEngineLocksTheHostOut : Prop :=
  ∀ (s : State) (m : HostMove) (ts : List Turn), s.phase.busy = true → s.turns = .host m :: ts →
    ((∃ t, step s = .next t) ↔ m = .read Reg.status.number ∨ m = .reset)

/-- R276: in phase FAULT the host can reset and read the registers readable when not busy; `LOAD`, `SET`,
`START`, `READ OUT` and `READ OUTLEN` are refused. [D15, D26] -/
def Obligations.FaultPhaseLocksTheHostOut : Prop :=
  ∀ (s : State) (m : HostMove) (ts : List Turn), s.phase = .fault → s.turns = .host m :: ts →
    ((∃ t, step s = .next t) ↔
      m = .reset ∨ ∃ r : Reg, m = .read r.number ∧
        (r = .cmd ∨ r = .status ∨ r = .err ∨ r = .fcause ∨ r = .blksz ∨ r = .origlen ∨ r = .keylen ∨
          r = .ivlen ∨ r = .inlen))

/-- R270, R94, R95: a move that fails its further condition is refused in every phase. [D8, D29; an access
the spec does not name is refused, log 4, log 19] -/
def Obligations.IllFormedMovesAreRefused : Prop :=
  ∀ (s : State) (m : HostMove) (ts : List Turn), s.turns = .host m :: ts →
    m.wellFormed Config.capacities = false → ∃ r, step s = .refused r

/-- R330, R38: a reset is accepted in every phase and gives every piece of the machine's state its reset
value; the host's own side stays (the model's choice, log 21). [D24] -/
def Obligations.ResetGivesTheResetState : Prop :=
  ∀ (s : State) (ts : List Turn), s.turns = .host .reset :: ts →
    step s = .next { s with
      turns := ts
      blksz := 0
      key := []
      iv := []
      inp := []
      origlen := 0
      cmd := { op := .encrypt, mode := .ecb, ivp := false, olp := false }
      phase := .idle
      err := none
      fcause := none
      bidx := 0
      nblk := 0
      prev := none
      work := []
      out := [] }

/-- R27: the four bits of `STATUS`. [D9] -/
def Obligations.StatusBitsViewThePhase : Prop :=
  ∀ p : Phase,
    ((statusOf p).getLsbD 0 = true ↔
      p = .validate ∨ p = .prep ∨ p = .process ∨ p = .finish) ∧
      ((statusOf p).getLsbD 1 = true ↔ p = .done) ∧ ((statusOf p).getLsbD 2 = true ↔ p = .error) ∧
      ((statusOf p).getLsbD 3 = true ↔ p = .fault) ∧ (p = .idle → statusOf p = 0b0000#4)

/-- R28, R29, R290, R300: the codes of the error kinds in `ERR` and of the fault causes in `FCAUSE`, 0 for
none. [D10, D15, D16] -/
def Obligations.ErrorAndFaultCodesAreTheNumbersOfTheSpec : Prop :=
  (errCode none = 0#3 ∧ errCode (some .invalidConfig) = 1#3 ∧ errCode (some .invalidKey) = 2#3 ∧
      errCode (some .invalidIV) = 3#3 ∧ errCode (some .transformFailure) = 4#3) ∧
    fcauseCode none = 0#2 ∧ fcauseCode (some .partitionAssert) = 1#2 ∧
    fcauseCode (some .unpadRange) = 2#2

/-- R274, R304, R340: no read tells states apart that differ only in the bytes of `KEY`, `IV`, `IN` and
`WORK` and in `PREV`. [D19] -/
def Obligations.ReadsRevealNoSecret : Prop :=
  ∀ (s t : State) (r : BitVec 4) (ts : List Turn) (key iv inp work : Bytes) (prev : Option Bytes),
    s.turns = .host (.read r) :: ts → key.length = s.key.length → iv.length = s.iv.length →
      inp.length = s.inp.length → step s = .next t →
        ∃ t', step { s with key := key, iv := iv, inp := inp, work := work, prev := prev } = .next t' ∧
          t'.readData = t.readData

/-! ## Invariants -/

/-- The state right after reset meets the invariant. [D24] -/
def Obligations.ResetStateMeetsTheInvariant : Prop :=
  Inv Config.capacities State.reset

/-- Every step keeps the invariant, whatever turn it takes. [derived] -/
def Obligations.EveryStepKeepsTheInvariant : Prop :=
  ∀ s t : State, Inv Config.capacities s → step s = .next t → Inv Config.capacities t

/-- R37: every state reached from reset by the moves of the spec meets clauses (a) to (e), and while the
engine is busy no step but a reset changes an operand or `CMD` (f). [D24 for the start, derived] -/
def Obligations.ReachableStatesMeetTheStateLaws : Prop :=
  ∀ s : State, Reachable s →
    StateLaws s ∧
      ∀ t, s.phase.busy = true → step s = .next t →
        SameOperands s t ∨ ∃ ts, s.turns = .host .reset :: ts

/-- R334, and R37 (f) with R26 and R71 for `CMD`: while the engine is busy, in any state at all, no step but
a reset changes an operand or `CMD`. A reset ends the run without result (R246, R330). [derived; `CMD` rests
on D7 and D18, the reset on D24 and D33] -/
def Obligations.OperandsAreStableWhileBusy : Prop :=
  ∀ s t : State, s.phase.busy = true → step s = .next t →
    SameOperands s t ∨ ∃ ts, s.turns = .host .reset :: ts

/-- R301: phase FAULT and its cause stay through every step but a reset. [D15, D26] -/
def Obligations.FaultIsLeftOnlyByReset : Prop :=
  ∀ s t : State, s.phase = .fault → step s = .next t →
    (t.phase = .fault ∧ t.fcause = s.fcause) ∨ ∃ ts, s.turns = .host .reset :: ts

/-- No rule is ever evaluated where it is undefined: from a state that meets the invariant no step ends in a
fault of the model. [derived; the model's faults are log 8] -/
def Obligations.GoodStatesNeverFaultTheModel : Prop :=
  ∀ (s : State) (f : Fault), Inv Config.capacities s → step s ≠ .fault f

/-- R302: the pictures a host can see in a state that meets the invariant, through `STATUS`, `ERR` and
`FCAUSE`. [derived] -/
def Obligations.HostSeesOneOfFivePictures : Prop :=
  ∀ s : State, Inv Config.capacities s →
    (statusOf s.phase = 0b0001#4 ∧ s.phase.busy = true) ∨
      (statusOf s.phase = 0b0000#4 ∧ s.phase = .idle ∧ s.out = []) ∨
      (statusOf s.phase = 0b0010#4 ∧ errCode s.err = 0#3 ∧ fcauseCode s.fcause = 0#2) ∨
      (statusOf s.phase = 0b0100#4 ∧ 1 ≤ (errCode s.err).toNat ∧ (errCode s.err).toNat ≤ 4 ∧
        fcauseCode s.fcause = 0#2 ∧ s.out = []) ∨
      (statusOf s.phase = 0b1000#4 ∧ 1 ≤ (fcauseCode s.fcause).toNat ∧
        (fcauseCode s.fcause).toNat ≤ 2 ∧ errCode s.err = 0#3 ∧ s.out = [])

/-! ## Padder and Partitioner -/

/-- R141: padding appends zero bytes only, up to the smallest multiple of the block size that is at least
the message length; an aligned message, the empty one included, is left as it is. -/
def Obligations.PaddingIsZeroFillToTheNextMultiple : Prop :=
  ∀ (m : Bytes) (bs : Nat), 0 < bs →
    pad m bs = m ++ zeros (ceilDiv m.length bs * bs - m.length) ∧
      bs ∣ (pad m bs).length ∧ (∀ len, bs ∣ len → m.length ≤ len → (pad m bs).length ≤ len) ∧
      (m.length % bs = 0 → pad m bs = m)

/-- R142: the number of filler bytes. [derived] -/
def Obligations.FillerCountIsNpad : Prop :=
  ∀ (m : Bytes) (bs : Nat), 0 < bs →
    (pad m bs).length = m.length + npad m.length bs ∧ npad m.length bs ≤ bs - 1 ∧
      (npad m.length bs = 0 ↔ m.length % bs = 0)

/-- R144: the byte-serial padding machine stops with exactly the padded message. [D17, derived] -/
def Obligations.PaddingMachineComputesPad : Prop :=
  ∀ (m : Bytes) (bs : Nat), 0 < bs →
    padFsm m bs = { st := .stop, j := (pad m bs).length, out := pad m bs }

/-- R147: unpadding with the message's own length undoes padding; padding twice is padding once; and without
the length padding is ambiguous. [derived] -/
def Obligations.PaddingLaws : Prop :=
  (∀ (m : Bytes) (bs : Nat), 0 < bs →
    unpad (pad m bs) m.length = m ∧ (pad m bs).length % bs = 0 ∧ pad (pad m bs) bs = pad m bs) ∧
    pad [0x41#8] 4 = pad [0x41#8, 0x00#8] 4

/-- R164: splitting into blocks and concatenating are inverse to each other. -/
def Obligations.BlocksRoundTrip : Prop :=
  (∀ (pm : Bytes) (bs : Nat), 0 < bs → pm.length % bs = 0 → fromBlocks (toBlocks pm bs) = pm) ∧
    ∀ (blocks : List Bytes) (bs : Nat), 0 < bs → (∀ b ∈ blocks, b.length = bs) →
      toBlocks (fromBlocks blocks) bs = blocks

/-- R161: driving the slice multiplexer through the block indices presents exactly the blocks of `toBlocks`,
in order. [D17, derived] -/
def Obligations.SliceMultiplexerPresentsTheBlocks : Prop :=
  ∀ (pm : Bytes) (bs : Nat), 0 < bs → pm.length % bs = 0 →
    (toBlocks pm bs).length = pm.length / bs ∧
      ∀ i, slice pm bs i = (toBlocks pm bs)[i]?

/-! ## The modes -/

/-- R177, R178, R179: encryption succeeds exactly when `E` answers for every block, and each ciphertext
block is then `E` of the plaintext block at the same index; decryption is the same with `D`; and equal
plaintext blocks give equal ciphertext blocks. -/
def Obligations.EcbTransformsEachBlockAlone : Prop :=
  ∀ (bt : BlockTransform) (blocks cbs : List Bytes) (key : Bytes),
    (ecbEncrypt bt blocks key = some cbs ↔
      cbs.length = blocks.length ∧
        ∀ (i : Nat) (b c : Bytes), blocks[i]? = some b → cbs[i]? = some c → bt.E b key = some c) ∧
      (ecbDecrypt bt blocks key = some cbs ↔
        cbs.length = blocks.length ∧
          ∀ (i : Nat) (c p : Bytes), blocks[i]? = some c → cbs[i]? = some p → bt.D c key = some p) ∧
      (ecbEncrypt bt blocks key = some cbs → ∀ i j : Nat, blocks[i]? = blocks[j]? → cbs[i]? = cbs[j]?)

/-- R195: the closed form of CBC encryption: block `i` is `E` of the plaintext block xored with the
ciphertext block before it, the IV for block 0. -/
def Obligations.CbcEncryptClosedForm : Prop :=
  ∀ (bt : BlockTransform) (blocks cbs : List Bytes) (key iv : Bytes),
    cbcEncrypt bt blocks key iv = some cbs ↔
      cbs.length = blocks.length ∧
        ∀ (i : Nat) (b c p : Bytes), blocks[i]? = some b → cbs[i]? = some c →
          (iv :: cbs)[i]? = some p → bt.E (xorBytes b p) key = some c

/-- R196, R197: the closed form of CBC decryption: block `i` is `D` of the ciphertext block xored with the
ciphertext block before it, which is known before any transform runs. -/
def Obligations.CbcDecryptClosedForm : Prop :=
  ∀ (bt : BlockTransform) (cblocks pbs : List Bytes) (key iv : Bytes),
    cbcDecrypt bt cblocks key iv = some pbs ↔
      pbs.length = cblocks.length ∧
        ∀ (i : Nat) (c p q : Bytes), cblocks[i]? = some c → pbs[i]? = some p →
          (iv :: cblocks)[i]? = some q → ∃ d, bt.D c key = some d ∧ p = xorBytes d q

/-- R200: decrypting a block with a chain value that is off by `delta` gives a plaintext block off by
exactly `delta`, and the same next chain value. [derived] -/
def Obligations.WrongChainValueFlipsExactlyItsDelta : Prop :=
  ∀ (bt : BlockTransform) (c key prev delta p next : Bytes), prev.length = c.length →
    delta.length = c.length → cbcDecStep bt c key prev = some (p, next) →
      cbcDecStep bt c key (xorBytes prev delta) = some (xorBytes p delta, next)

/-- R199: with an invertible transform, two different IVs give different first ciphertext blocks. [derived]
-/
def Obligations.DifferentIvsGiveDifferentFirstBlocks : Prop :=
  ∀ (cap : Capacities) (bt : BlockTransform) (b key iv iv' : Bytes) (rest cbs cbs' : List Bytes),
    bt.Invertible cap → 1 ≤ b.length → b.length ≤ cap.bsMax → b.length ≤ key.length →
      iv.length = b.length → iv'.length = b.length → iv ≠ iv' →
        cbcEncrypt bt (b :: rest) key iv = some cbs → cbcEncrypt bt (b :: rest) key iv' = some cbs' →
          cbs[0]? ≠ cbs'[0]?

/-- R201: for one block, CBC with an all-zero IV is ECB, and with any other IV it differs from ECB when the
transform is invertible. [derived] -/
def Obligations.SingleBlockCbcAgainstEcb : Prop :=
  ∀ (cap : Capacities) (bt : BlockTransform) (b key iv : Bytes), bt.Invertible cap → 1 ≤ b.length →
    b.length ≤ cap.bsMax → b.length ≤ key.length → iv.length = b.length →
      (iv = zeros b.length → cbcEncrypt bt [b] key iv = ecbEncrypt bt [b] key) ∧
        (iv ≠ zeros b.length → ∀ cs cs', cbcEncrypt bt [b] key iv = some cs →
          ecbEncrypt bt [b] key = some cs' → cs ≠ cs')

/-- R194, R237: the block step is the datapath of the multiplexers: `XIN` into the transform the direction
selects, `BOUT` out of it, and the block-chain multiplexer's next `PREV`. [D17] -/
def Obligations.BlockStepIsTheMultiplexedDatapath : Prop :=
  ∀ (bt : BlockTransform) (op : Op) (mode : Mode) (b key v : Bytes), v.length = b.length →
    blockStep bt op mode b key (some v) =
      .ok ((ecbStep bt op (xinMux op mode b v) key).map fun x =>
        (boutMux op mode x v, chainMux op mode b x))

/-! ## What the machine computes -/

/-- R242: `encrypt` is the command of the mode; the ciphertext is as long as the padded message, and an
encrypt never ends in a fault. -/
def Obligations.CiphertextIsAsLongAsThePaddedMessage : Prop :=
  ∀ (bt : BlockTransform) (mode : Mode) (p key : Bytes) (ivOpt : Option Bytes) (bs : Nat),
    (mode = .ecb → encrypt bt mode p key ivOpt bs = encEcbResult bt bs key p) ∧
      (mode = .cbc → encrypt bt mode p key ivOpt bs = encCbcResult bt bs key ivOpt p) ∧
      (∀ c, encrypt bt mode p key ivOpt bs = .ok c → c.length = ceilDiv p.length bs * bs) ∧
      ∀ f, encrypt bt mode p key ivOpt bs ≠ .fault f

/-- R233, R234: the plaintext is `ORIGLEN` bytes long where an original length is supplied and as long as
the ciphertext where none is. [D14, D16] -/
def Obligations.PlaintextLengthIsTheSuppliedLength : Prop :=
  ∀ (bt : BlockTransform) (mode : Mode) (c key p : Bytes) (ivOpt : Option Bytes) (bs : Nat)
    (olenOpt : Option Nat), decrypt bt mode c key ivOpt bs olenOpt = .ok p →
      p.length = olenOpt.getD c.length

/-- R245: decrypting what encrypting gave, with the same operands and the message's length, gives the
message back; without the length it gives the padded message. [derived] -/
def Obligations.DecryptUndoesEncrypt : Prop :=
  ∀ (cap : Capacities) (bt : BlockTransform) (mode : Mode) (p key c : Bytes) (ivOpt : Option Bytes)
    (bs : Nat), bt.Invertible cap → bs ≤ cap.bsMax → encrypt bt mode p key ivOpt bs = .ok c →
      decrypt bt mode c key ivOpt bs (some p.length) = .ok p ∧
        decrypt bt mode c key ivOpt bs none = .ok (pad p bs)

/-- R244, R241: from any good state in an open phase, a presented command runs to its end within `NBLK + 4`
engine steps, whatever `READ STATUS` moves and engine turns come between, and the machine then shows exactly
what the command's function answers on the operands, with the operands unchanged and no chaining state or
padded copy left. [D17, derived; that the engine moves when no turn is listed, and the idle steps above the
bound, are log 3] -/
def Obligations.MachineAgreesWithTheCommandFunctions : Prop :=
  ∀ (i : Instr) (s : State) (ts : List Turn), Inv Config.capacities s → s.phase.hostOpen = true →
    (∀ t ∈ ts, t.quiet = true) →
      ∀ k, ts.length + 1 + (blockCount i s + 4) ≤ k →
        ∃ t, run k { s with turns := .host (.start (encode i)) :: ts } = .next t ∧
          Shows t (commandResult Config.transform i s) ∧ t.prev = none ∧ t.work = [] ∧
          t.blksz = s.blksz ∧ t.key = s.key ∧ t.iv = s.iv ∧ t.inp = s.inp ∧ t.origlen = s.origlen ∧
          t.cmd = Command.ofInstr i ∧ t.turns = []

/-- R39, R124, R198, R231 to R234: two commands that agree on what they read end alike, whatever else the
two states hold: the unread operands, the ignored flags, and all that earlier commands left. [D12, D13, D14,
D21; the steps after the presented one are the engine's by log 3] -/
def Obligations.NothingUnreadInfluencesTheOutcome : Prop :=
  ∀ (i i' : Instr) (s s' t t' : State) (k k' : Nat), Inv Config.capacities s →
    Inv Config.capacities s' → s.phase.hostOpen = true → s'.phase.hostOpen = true → s.turns = [] →
      s'.turns = [] → commandView i s = commandView i' s' → blockCount i s + 5 ≤ k →
        blockCount i' s' + 5 ≤ k' → run k (presentStart (encode i) s) = .next t →
          run k' (presentStart (encode i') s') = .next t' →
            t.phase = t'.phase ∧ t.err = t'.err ∧ t.fcause = t'.fcause ∧ t.out = t'.out

/-- R332: whatever legal word the host presents straight after reset, the machine is in ERROR with
`InvalidConfig` two steps later. It rests wholly on the reset values of R38, the spec's decision D24 (log 12;
U23: with other reset values it does not hold). [D24, derived; the second step is the engine's by log 3] -/
def Obligations.CommandAfterResetFailsValidation : Prop :=
  ∀ w : BitVec 8, commandWordWellFormed w = true →
    ∃ t, run 2 (presentStart w State.reset) = .next t ∧ t.phase = .error ∧
      t.err = some .invalidConfig ∧ t.out = []

/-- R100: the document's `encrypt` call, as its host moves: on operands that fit the hardware it ends, and
the call's result is that of the function. [D27; the order of the moves is log 23, WAIT is log 15, idle
steps are log 3] -/
def Obligations.EncryptCallComputesEncrypt : Prop :=
  ∀ (mode : Mode) (p key : Bytes) (ivOpt : Option Bytes) (bs : Nat) (s : State),
    Inv Config.capacities s → s.phase.hostOpen = true → bs ≤ Config.capacities.bsMax →
      key.length ≤ Config.capacities.keyMax → p.length ≤ Config.capacities.inMax →
        (∀ iv, ivOpt = some iv → iv.length ≤ Config.capacities.ivMax) →
          ∃ k, ∀ n, k ≤ n → ∃ t,
            run n { s with turns := encryptScript mode p key ivOpt bs } = .next t ∧ t.turns = [] ∧
              callResult t = some (encrypt Config.transform mode p key ivOpt bs)

/-- R100: the document's `decrypt` call likewise; where the function ends in a fault the call has no result.
[D27; the order of the moves is log 23, WAIT is log 15, idle steps are log 3] -/
def Obligations.DecryptCallComputesDecrypt : Prop :=
  ∀ (mode : Mode) (c key : Bytes) (ivOpt : Option Bytes) (bs : Nat) (olenOpt : Option Nat) (s : State),
    Inv Config.capacities s → s.phase.hostOpen = true → bs ≤ Config.capacities.bsMax →
      key.length ≤ Config.capacities.keyMax → c.length ≤ Config.capacities.inMax →
        (∀ iv, ivOpt = some iv → iv.length ≤ Config.capacities.ivMax) →
          (∀ n, olenOpt = some n → n < 2 ^ Config.capacities.lenW) →
            ∃ k, ∀ n, k ≤ n → ∃ t,
              run n { s with turns := decryptScript mode c key ivOpt bs olenOpt } = .next t ∧
                t.turns = [] ∧
                callResult t =
                  (match decrypt Config.transform mode c key ivOpt bs olenOpt with
                  | .ok v => some (.ok v)
                  | .err e => some (.err e)
                  | .fault _ => none)
end

