-- ==== Sys2Proof/Laws/Ops.lean ====
section
/-! SUPPORT. What the shared operations over bytes, buffers and blocks answer, one lemma each. -/

namespace Sys2Proof

/-- R217: `E` keeps the length of the block. -/
theorem BlockTransform.E_length {bt : BlockTransform} {b key c : Bytes} (h : bt.E b key = some c) :
    c.length = b.length := by
  unfold BlockTransform.E at h
  obtain ⟨x, -, rfl⟩ := Option.map_eq_some_iff.mp h
  exact x.2

/-- R217: `D` keeps the length of the block. -/
theorem BlockTransform.D_length {bt : BlockTransform} {b key c : Bytes} (h : bt.D b key = some c) :
    c.length = b.length := by
  unfold BlockTransform.D at h
  obtain ⟨x, -, rfl⟩ := Option.map_eq_some_iff.mp h
  exact x.2

namespace Machine

/-! Padding arithmetic -/

@[simp] theorem zeros_length (n : Nat) : (zeros n).length = n := by simp [zeros]

theorem dvd_paddedLength (n bs : Nat) : bs ∣ paddedLength n bs := Dvd.intro_left _ rfl

theorem le_paddedLength {n bs : Nat} (h : 0 < bs) : n ≤ paddedLength n bs := by
  have := Nat.div_add_mod (n + bs - 1) bs
  have := Nat.mod_lt (n + bs - 1) h
  unfold paddedLength ceilDiv
  rw [Nat.mul_comm]
  omega

theorem paddedLength_lt {n bs : Nat} (h : 0 < bs) : paddedLength n bs < n + bs := by
  have := Nat.div_mul_le_self (n + bs - 1) bs
  unfold paddedLength ceilDiv
  omega

theorem pad_length {m : Bytes} {bs : Nat} (h : 0 < bs) :
    (pad m bs).length = paddedLength m.length bs := by
  have := le_paddedLength (n := m.length) h
  simp [pad]
  omega

theorem pad_length_div {m : Bytes} {bs : Nat} (h : 0 < bs) :
    (pad m bs).length / bs = ceilDiv m.length bs := by
  rw [pad_length h, paddedLength, Nat.mul_div_cancel _ h]

theorem pad_length_mod {m : Bytes} {bs : Nat} (h : 0 < bs) : (pad m bs).length % bs = 0 := by
  rw [pad_length h, paddedLength, Nat.mul_mod_left]

@[simp] theorem unpad_length (pm : Bytes) (n : Nat) : (unpad pm n).length = min n pm.length := by
  simp [unpad]

/-! Accesses -/

theorem memRead_length {buf : Bytes} {addr n : Nat} (h : addr + n ≤ buf.length) :
    (memRead buf addr n).length = n := by
  simp [memRead]
  omega

theorem xorBytes_length {a b : Bytes} (h : a.length = b.length) :
    (xorBytes a b).length = a.length := by
  simp [xorBytes, h]

/-- Xor with the same bytes twice is the identity. -/
theorem xorBytes_cancel : ∀ {a b : Bytes}, a.length = b.length → xorBytes (xorBytes a b) b = a
  | [], [], _ => rfl
  | x :: a, y :: b, h => by
    have ih := xorBytes_cancel (a := a) (b := b) (by simpa using h)
    simp only [xorBytes, List.zipWith_cons_cons] at ih ⊢
    rw [ih, BitVec.xor_assoc, BitVec.xor_self, BitVec.xor_zero]

theorem xorBytes_comm : ∀ (a b : Bytes), xorBytes a b = xorBytes b a := by
  intro a b
  exact List.zipWith_comm_of_comm (fun x y => BitVec.xor_comm x y)

/-- Where the slice is defined, and what it is (R161). -/
theorem slice_eq_some {pm : Bytes} {bs i : Nat} {b : Bytes} :
    slice pm bs i = some b ↔
      (0 < bs ∧ (i + 1) * bs ≤ pm.length) ∧ memRead pm (i * bs) bs = b := by
  unfold slice
  split <;> simp_all

theorem slice_length {pm : Bytes} {bs i : Nat} {b : Bytes} (h : slice pm bs i = some b) :
    b.length = bs := by
  obtain ⟨⟨-, hle⟩, rfl⟩ := slice_eq_some.mp h
  exact memRead_length (by rw [Nat.succ_mul] at hle; exact hle)

/-! Canonical form of memory -/

/-- The cells of any byte sequence are in canonical form (R60). -/
theorem cellsFrom_wf : ∀ (a : Nat) (b : Bytes), cellsWf (cellsFrom a b) = true
  | _, [] => rfl
  | _, [_] => rfl
  | a, _ :: y :: rest => by
    simpa [cellsFrom, cellsWf] using cellsFrom_wf (a + 1) (y :: rest)

/-- So a memory is well formed exactly when every buffer is within its capacity. -/
theorem memoryWf_iff {c : Capacities} {s : State} :
    s.memoryWf c = true ↔
      s.key.length ≤ c.keyMax ∧ s.iv.length ≤ c.ivMax ∧ s.inp.length ≤ c.inMax ∧
        s.work.length ≤ c.outMax ∧ s.out.length ≤ c.outMax := by
  simp [State.memoryWf, cellsFrom_wf, and_assoc]

/-- Memory right after reset is well formed. -/
theorem reset_memoryWf (c : Capacities) : State.reset.memoryWf c = true := by
  simp [memoryWf_iff, State.reset]

/-- A memory write of a whole block inside the buffer keeps the buffer's length, and so the canonical
form and the capacity. -/
theorem memWrite_length {buf v : Bytes} {addr n : Nat} (h : addr + n ≤ buf.length) (hv : v.length = n) :
    (memWrite buf addr n v).length = buf.length := by
  simp [memWrite, hv]
  omega

/-- Appending a block is a memory write at the end of the buffer (R63). -/
theorem memWrite_at_end (buf v : Bytes) (n : Nat) : memWrite buf buf.length n v = buf ++ v := by
  simp [memWrite]

/-! The command register -/

@[simp] theorem ofInstr_instr (i : Instr) : (Command.ofInstr i).instr = i := by cases i <;> rfl

@[simp] theorem instr_ofInstr (c : Command) : Command.ofInstr c.instr = c := by
  obtain ⟨op, mode, ivp, olp⟩ := c
  cases op <;> cases mode <;> rfl

end Machine
end Sys2Proof
end

