-- ==== Sys2Proof/Laws/State.lean ====
section
/-! SUPPORT. What each named update of the state leaves in each field: true by `rfl`, so that no later proof
unfolds a record update. -/

namespace Sys2Proof.Machine

/-! `errorEntry` -/

@[simp] theorem errorEntry_blksz (k : ModeError) (s : State) : (errorEntry k s).blksz = s.blksz := rfl
@[simp] theorem errorEntry_key (k : ModeError) (s : State) : (errorEntry k s).key = s.key := rfl
@[simp] theorem errorEntry_iv (k : ModeError) (s : State) : (errorEntry k s).iv = s.iv := rfl
@[simp] theorem errorEntry_inp (k : ModeError) (s : State) : (errorEntry k s).inp = s.inp := rfl
@[simp] theorem errorEntry_origlen (k : ModeError) (s : State) : (errorEntry k s).origlen = s.origlen := rfl
@[simp] theorem errorEntry_cmd (k : ModeError) (s : State) : (errorEntry k s).cmd = s.cmd := rfl
@[simp] theorem errorEntry_phase (k : ModeError) (s : State) : (errorEntry k s).phase = .error := rfl
@[simp] theorem errorEntry_err (k : ModeError) (s : State) : (errorEntry k s).err = some k := rfl
@[simp] theorem errorEntry_fcause (k : ModeError) (s : State) : (errorEntry k s).fcause = s.fcause := rfl
@[simp] theorem errorEntry_bidx (k : ModeError) (s : State) : (errorEntry k s).bidx = s.bidx := rfl
@[simp] theorem errorEntry_nblk (k : ModeError) (s : State) : (errorEntry k s).nblk = s.nblk := rfl
@[simp] theorem errorEntry_prev (k : ModeError) (s : State) : (errorEntry k s).prev = none := rfl
@[simp] theorem errorEntry_work (k : ModeError) (s : State) : (errorEntry k s).work = [] := rfl
@[simp] theorem errorEntry_out (k : ModeError) (s : State) : (errorEntry k s).out = [] := rfl
@[simp] theorem errorEntry_turns (k : ModeError) (s : State) : (errorEntry k s).turns = s.turns := rfl
@[simp] theorem errorEntry_readData (k : ModeError) (s : State) : (errorEntry k s).readData = s.readData := rfl

/-! `faultEntry` -/

@[simp] theorem faultEntry_blksz (c : FaultCause) (s : State) : (faultEntry c s).blksz = s.blksz := rfl
@[simp] theorem faultEntry_key (c : FaultCause) (s : State) : (faultEntry c s).key = s.key := rfl
@[simp] theorem faultEntry_iv (c : FaultCause) (s : State) : (faultEntry c s).iv = s.iv := rfl
@[simp] theorem faultEntry_inp (c : FaultCause) (s : State) : (faultEntry c s).inp = s.inp := rfl
@[simp] theorem faultEntry_origlen (c : FaultCause) (s : State) : (faultEntry c s).origlen = s.origlen := rfl
@[simp] theorem faultEntry_cmd (c : FaultCause) (s : State) : (faultEntry c s).cmd = s.cmd := rfl
@[simp] theorem faultEntry_phase (c : FaultCause) (s : State) : (faultEntry c s).phase = .fault := rfl
@[simp] theorem faultEntry_err (c : FaultCause) (s : State) : (faultEntry c s).err = s.err := rfl
@[simp] theorem faultEntry_fcause (c : FaultCause) (s : State) : (faultEntry c s).fcause = some c := rfl
@[simp] theorem faultEntry_bidx (c : FaultCause) (s : State) : (faultEntry c s).bidx = s.bidx := rfl
@[simp] theorem faultEntry_nblk (c : FaultCause) (s : State) : (faultEntry c s).nblk = s.nblk := rfl
@[simp] theorem faultEntry_prev (c : FaultCause) (s : State) : (faultEntry c s).prev = s.prev := rfl
@[simp] theorem faultEntry_work (c : FaultCause) (s : State) : (faultEntry c s).work = s.work := rfl
@[simp] theorem faultEntry_out (c : FaultCause) (s : State) : (faultEntry c s).out = [] := rfl
@[simp] theorem faultEntry_turns (c : FaultCause) (s : State) : (faultEntry c s).turns = s.turns := rfl
@[simp] theorem faultEntry_readData (c : FaultCause) (s : State) : (faultEntry c s).readData = s.readData := rfl

/-! `startCommand` -/

@[simp] theorem startCommand_blksz (c : Command) (s : State) : (startCommand c s).blksz = s.blksz := rfl
@[simp] theorem startCommand_key (c : Command) (s : State) : (startCommand c s).key = s.key := rfl
@[simp] theorem startCommand_iv (c : Command) (s : State) : (startCommand c s).iv = s.iv := rfl
@[simp] theorem startCommand_inp (c : Command) (s : State) : (startCommand c s).inp = s.inp := rfl
@[simp] theorem startCommand_origlen (c : Command) (s : State) : (startCommand c s).origlen = s.origlen := rfl
@[simp] theorem startCommand_cmd (c : Command) (s : State) : (startCommand c s).cmd = c := rfl
@[simp] theorem startCommand_phase (c : Command) (s : State) : (startCommand c s).phase = .validate := rfl
@[simp] theorem startCommand_err (c : Command) (s : State) : (startCommand c s).err = none := rfl
@[simp] theorem startCommand_fcause (c : Command) (s : State) : (startCommand c s).fcause = s.fcause := rfl
@[simp] theorem startCommand_bidx (c : Command) (s : State) : (startCommand c s).bidx = s.bidx := rfl
@[simp] theorem startCommand_nblk (c : Command) (s : State) : (startCommand c s).nblk = s.nblk := rfl
@[simp] theorem startCommand_prev (c : Command) (s : State) : (startCommand c s).prev = s.prev := rfl
@[simp] theorem startCommand_work (c : Command) (s : State) : (startCommand c s).work = s.work := rfl
@[simp] theorem startCommand_out (c : Command) (s : State) : (startCommand c s).out = [] := rfl
@[simp] theorem startCommand_turns (c : Command) (s : State) : (startCommand c s).turns = s.turns := rfl
@[simp] theorem startCommand_readData (c : Command) (s : State) : (startCommand c s).readData = s.readData := rfl

/-! `resetMachine` -/

@[simp] theorem resetMachine_blksz (s : State) : (resetMachine s).blksz = State.reset.blksz := rfl
@[simp] theorem resetMachine_key (s : State) : (resetMachine s).key = State.reset.key := rfl
@[simp] theorem resetMachine_iv (s : State) : (resetMachine s).iv = State.reset.iv := rfl
@[simp] theorem resetMachine_inp (s : State) : (resetMachine s).inp = State.reset.inp := rfl
@[simp] theorem resetMachine_origlen (s : State) : (resetMachine s).origlen = State.reset.origlen := rfl
@[simp] theorem resetMachine_cmd (s : State) : (resetMachine s).cmd = State.reset.cmd := rfl
@[simp] theorem resetMachine_phase (s : State) : (resetMachine s).phase = State.reset.phase := rfl
@[simp] theorem resetMachine_err (s : State) : (resetMachine s).err = State.reset.err := rfl
@[simp] theorem resetMachine_fcause (s : State) : (resetMachine s).fcause = State.reset.fcause := rfl
@[simp] theorem resetMachine_bidx (s : State) : (resetMachine s).bidx = State.reset.bidx := rfl
@[simp] theorem resetMachine_nblk (s : State) : (resetMachine s).nblk = State.reset.nblk := rfl
@[simp] theorem resetMachine_prev (s : State) : (resetMachine s).prev = State.reset.prev := rfl
@[simp] theorem resetMachine_work (s : State) : (resetMachine s).work = State.reset.work := rfl
@[simp] theorem resetMachine_out (s : State) : (resetMachine s).out = State.reset.out := rfl
@[simp] theorem resetMachine_turns (s : State) : (resetMachine s).turns = s.turns := rfl
@[simp] theorem resetMachine_readData (s : State) : (resetMachine s).readData = s.readData := rfl

/-! `beginBlocks` -/

@[simp] theorem beginBlocks_blksz (w : Bytes) (s : State) : (beginBlocks w s).blksz = s.blksz := rfl
@[simp] theorem beginBlocks_key (w : Bytes) (s : State) : (beginBlocks w s).key = s.key := rfl
@[simp] theorem beginBlocks_iv (w : Bytes) (s : State) : (beginBlocks w s).iv = s.iv := rfl
@[simp] theorem beginBlocks_inp (w : Bytes) (s : State) : (beginBlocks w s).inp = s.inp := rfl
@[simp] theorem beginBlocks_origlen (w : Bytes) (s : State) : (beginBlocks w s).origlen = s.origlen := rfl
@[simp] theorem beginBlocks_cmd (w : Bytes) (s : State) : (beginBlocks w s).cmd = s.cmd := rfl
@[simp] theorem beginBlocks_phase (w : Bytes) (s : State) : (beginBlocks w s).phase = .process := rfl
@[simp] theorem beginBlocks_err (w : Bytes) (s : State) : (beginBlocks w s).err = s.err := rfl
@[simp] theorem beginBlocks_fcause (w : Bytes) (s : State) : (beginBlocks w s).fcause = s.fcause := rfl
@[simp] theorem beginBlocks_bidx (w : Bytes) (s : State) : (beginBlocks w s).bidx = 0 := rfl
@[simp] theorem beginBlocks_nblk (w : Bytes) (s : State) : (beginBlocks w s).nblk = w.length / s.blksz := rfl
theorem beginBlocks_prev (w : Bytes) (s : State) :
    (beginBlocks w s).prev = match s.cmd.mode with | .cbc => some s.iv | .ecb => none := rfl
@[simp] theorem beginBlocks_prev_cbc (w : Bytes) (s : State) (h : s.cmd.mode = .cbc) :
    (beginBlocks w s).prev = some s.iv := by rw [beginBlocks_prev, h]
@[simp] theorem beginBlocks_prev_ecb (w : Bytes) (s : State) (h : s.cmd.mode = .ecb) :
    (beginBlocks w s).prev = none := by rw [beginBlocks_prev, h]
@[simp] theorem beginBlocks_work (w : Bytes) (s : State) : (beginBlocks w s).work = w := rfl
@[simp] theorem beginBlocks_out (w : Bytes) (s : State) : (beginBlocks w s).out = [] := rfl
@[simp] theorem beginBlocks_turns (w : Bytes) (s : State) : (beginBlocks w s).turns = s.turns := rfl
@[simp] theorem beginBlocks_readData (w : Bytes) (s : State) : (beginBlocks w s).readData = s.readData := rfl

/-! `blockDone` -/

@[simp] theorem blockDone_blksz (o : Bytes) (p : Option Bytes) (s : State) : (blockDone o p s).blksz = s.blksz := rfl
@[simp] theorem blockDone_key (o : Bytes) (p : Option Bytes) (s : State) : (blockDone o p s).key = s.key := rfl
@[simp] theorem blockDone_iv (o : Bytes) (p : Option Bytes) (s : State) : (blockDone o p s).iv = s.iv := rfl
@[simp] theorem blockDone_inp (o : Bytes) (p : Option Bytes) (s : State) : (blockDone o p s).inp = s.inp := rfl
@[simp] theorem blockDone_origlen (o : Bytes) (p : Option Bytes) (s : State) : (blockDone o p s).origlen = s.origlen := rfl
@[simp] theorem blockDone_cmd (o : Bytes) (p : Option Bytes) (s : State) : (blockDone o p s).cmd = s.cmd := rfl
@[simp] theorem blockDone_phase (o : Bytes) (p : Option Bytes) (s : State) : (blockDone o p s).phase = s.phase := rfl
@[simp] theorem blockDone_err (o : Bytes) (p : Option Bytes) (s : State) : (blockDone o p s).err = s.err := rfl
@[simp] theorem blockDone_fcause (o : Bytes) (p : Option Bytes) (s : State) : (blockDone o p s).fcause = s.fcause := rfl
@[simp] theorem blockDone_bidx (o : Bytes) (p : Option Bytes) (s : State) : (blockDone o p s).bidx = s.bidx + 1 := rfl
@[simp] theorem blockDone_nblk (o : Bytes) (p : Option Bytes) (s : State) : (blockDone o p s).nblk = s.nblk := rfl
@[simp] theorem blockDone_prev (o : Bytes) (p : Option Bytes) (s : State) : (blockDone o p s).prev = p := rfl
@[simp] theorem blockDone_work (o : Bytes) (p : Option Bytes) (s : State) : (blockDone o p s).work = s.work := rfl
@[simp] theorem blockDone_out (o : Bytes) (p : Option Bytes) (s : State) : (blockDone o p s).out = s.out ++ o := rfl
@[simp] theorem blockDone_turns (o : Bytes) (p : Option Bytes) (s : State) : (blockDone o p s).turns = s.turns := rfl
@[simp] theorem blockDone_readData (o : Bytes) (p : Option Bytes) (s : State) : (blockDone o p s).readData = s.readData := rfl

/-! `loopExit` -/

@[simp] theorem loopExit_blksz (s : State) : (loopExit s).blksz = s.blksz := rfl
@[simp] theorem loopExit_key (s : State) : (loopExit s).key = s.key := rfl
@[simp] theorem loopExit_iv (s : State) : (loopExit s).iv = s.iv := rfl
@[simp] theorem loopExit_inp (s : State) : (loopExit s).inp = s.inp := rfl
@[simp] theorem loopExit_origlen (s : State) : (loopExit s).origlen = s.origlen := rfl
@[simp] theorem loopExit_cmd (s : State) : (loopExit s).cmd = s.cmd := rfl
@[simp] theorem loopExit_phase (s : State) : (loopExit s).phase = .finish := rfl
@[simp] theorem loopExit_err (s : State) : (loopExit s).err = s.err := rfl
@[simp] theorem loopExit_fcause (s : State) : (loopExit s).fcause = s.fcause := rfl
@[simp] theorem loopExit_bidx (s : State) : (loopExit s).bidx = s.bidx := rfl
@[simp] theorem loopExit_nblk (s : State) : (loopExit s).nblk = s.nblk := rfl
@[simp] theorem loopExit_prev (s : State) : (loopExit s).prev = none := rfl
@[simp] theorem loopExit_work (s : State) : (loopExit s).work = [] := rfl
@[simp] theorem loopExit_out (s : State) : (loopExit s).out = s.out := rfl
@[simp] theorem loopExit_turns (s : State) : (loopExit s).turns = s.turns := rfl
@[simp] theorem loopExit_readData (s : State) : (loopExit s).readData = s.readData := rfl

/-! `deliver` -/

@[simp] theorem deliver_blksz (v : ReadData) (s : State) : (deliver v s).blksz = s.blksz := rfl
@[simp] theorem deliver_key (v : ReadData) (s : State) : (deliver v s).key = s.key := rfl
@[simp] theorem deliver_iv (v : ReadData) (s : State) : (deliver v s).iv = s.iv := rfl
@[simp] theorem deliver_inp (v : ReadData) (s : State) : (deliver v s).inp = s.inp := rfl
@[simp] theorem deliver_origlen (v : ReadData) (s : State) : (deliver v s).origlen = s.origlen := rfl
@[simp] theorem deliver_cmd (v : ReadData) (s : State) : (deliver v s).cmd = s.cmd := rfl
@[simp] theorem deliver_phase (v : ReadData) (s : State) : (deliver v s).phase = s.phase := rfl
@[simp] theorem deliver_err (v : ReadData) (s : State) : (deliver v s).err = s.err := rfl
@[simp] theorem deliver_fcause (v : ReadData) (s : State) : (deliver v s).fcause = s.fcause := rfl
@[simp] theorem deliver_bidx (v : ReadData) (s : State) : (deliver v s).bidx = s.bidx := rfl
@[simp] theorem deliver_nblk (v : ReadData) (s : State) : (deliver v s).nblk = s.nblk := rfl
@[simp] theorem deliver_prev (v : ReadData) (s : State) : (deliver v s).prev = s.prev := rfl
@[simp] theorem deliver_work (v : ReadData) (s : State) : (deliver v s).work = s.work := rfl
@[simp] theorem deliver_out (v : ReadData) (s : State) : (deliver v s).out = s.out := rfl
@[simp] theorem deliver_turns (v : ReadData) (s : State) : (deliver v s).turns = s.turns := rfl
@[simp] theorem deliver_readData (v : ReadData) (s : State) : (deliver v s).readData = some v := rfl

/-! `waitTurn` -/

@[simp] theorem waitTurn_blksz (rest : List Turn) (s : State) : (waitTurn rest s).blksz = s.blksz := rfl
@[simp] theorem waitTurn_key (rest : List Turn) (s : State) : (waitTurn rest s).key = s.key := rfl
@[simp] theorem waitTurn_iv (rest : List Turn) (s : State) : (waitTurn rest s).iv = s.iv := rfl
@[simp] theorem waitTurn_inp (rest : List Turn) (s : State) : (waitTurn rest s).inp = s.inp := rfl
@[simp] theorem waitTurn_origlen (rest : List Turn) (s : State) : (waitTurn rest s).origlen = s.origlen := rfl
@[simp] theorem waitTurn_cmd (rest : List Turn) (s : State) : (waitTurn rest s).cmd = s.cmd := rfl
@[simp] theorem waitTurn_phase (rest : List Turn) (s : State) : (waitTurn rest s).phase = s.phase := rfl
@[simp] theorem waitTurn_err (rest : List Turn) (s : State) : (waitTurn rest s).err = s.err := rfl
@[simp] theorem waitTurn_fcause (rest : List Turn) (s : State) : (waitTurn rest s).fcause = s.fcause := rfl
@[simp] theorem waitTurn_bidx (rest : List Turn) (s : State) : (waitTurn rest s).bidx = s.bidx := rfl
@[simp] theorem waitTurn_nblk (rest : List Turn) (s : State) : (waitTurn rest s).nblk = s.nblk := rfl
@[simp] theorem waitTurn_prev (rest : List Turn) (s : State) : (waitTurn rest s).prev = s.prev := rfl
@[simp] theorem waitTurn_work (rest : List Turn) (s : State) : (waitTurn rest s).work = s.work := rfl
@[simp] theorem waitTurn_out (rest : List Turn) (s : State) : (waitTurn rest s).out = s.out := rfl
@[simp] theorem waitTurn_turns (rest : List Turn) (s : State) : (waitTurn rest s).turns = if s.phase.busy then .engine :: .wait :: rest else rest := rfl
@[simp] theorem waitTurn_readData (rest : List Turn) (s : State) : (waitTurn rest s).readData = some (.number (statusOf s.phase).toNat) := rfl

/-! `presentStart` -/

@[simp] theorem presentStart_blksz (w : BitVec 8) (s : State) : (presentStart w s).blksz = s.blksz := rfl
@[simp] theorem presentStart_key (w : BitVec 8) (s : State) : (presentStart w s).key = s.key := rfl
@[simp] theorem presentStart_iv (w : BitVec 8) (s : State) : (presentStart w s).iv = s.iv := rfl
@[simp] theorem presentStart_inp (w : BitVec 8) (s : State) : (presentStart w s).inp = s.inp := rfl
@[simp] theorem presentStart_origlen (w : BitVec 8) (s : State) : (presentStart w s).origlen = s.origlen := rfl
@[simp] theorem presentStart_cmd (w : BitVec 8) (s : State) : (presentStart w s).cmd = s.cmd := rfl
@[simp] theorem presentStart_phase (w : BitVec 8) (s : State) : (presentStart w s).phase = s.phase := rfl
@[simp] theorem presentStart_err (w : BitVec 8) (s : State) : (presentStart w s).err = s.err := rfl
@[simp] theorem presentStart_fcause (w : BitVec 8) (s : State) : (presentStart w s).fcause = s.fcause := rfl
@[simp] theorem presentStart_bidx (w : BitVec 8) (s : State) : (presentStart w s).bidx = s.bidx := rfl
@[simp] theorem presentStart_nblk (w : BitVec 8) (s : State) : (presentStart w s).nblk = s.nblk := rfl
@[simp] theorem presentStart_prev (w : BitVec 8) (s : State) : (presentStart w s).prev = s.prev := rfl
@[simp] theorem presentStart_work (w : BitVec 8) (s : State) : (presentStart w s).work = s.work := rfl
@[simp] theorem presentStart_out (w : BitVec 8) (s : State) : (presentStart w s).out = s.out := rfl
@[simp] theorem presentStart_turns (w : BitVec 8) (s : State) : (presentStart w s).turns = .host (.start w) :: s.turns := rfl
@[simp] theorem presentStart_readData (w : BitVec 8) (s : State) : (presentStart w s).readData = s.readData := rfl

end Sys2Proof.Machine
end

