-- ==== Sys2Proof/Laws/Engine.lean ====
section
/-! SUPPORT. Everything an engine step and a command's next step can do, one inversion lemma per function;
later proofs cite these instead of unfolding the step. -/

namespace Sys2Proof.Machine

theorem validateStep_next {s t : State} (h : validateStep s = .next t) :
    (validate s.cmd.mode s.blksz s.key.length s.ivOpt = .ok () ∧ t = { s with phase := .prep }) ∨
      ∃ k, validate s.cmd.mode s.blksz s.key.length s.ivOpt = .error k ∧ t = errorEntry k s := by
  unfold validateStep at h
  split at h
  next _ hv => exact .inl ⟨hv, by simpa using h.symm⟩
  next k hv => exact .inr ⟨k, hv, by simpa using h.symm⟩

theorem prepStep_next {s t : State} (h : prepStep s = .next t) :
    s.blksz ≠ 0 ∧
      ((s.cmd.op = .encrypt ∧ t = beginBlocks (pad s.inp s.blksz) s) ∨
        (s.cmd.op = .decrypt ∧ s.inp.length % s.blksz ≠ 0 ∧ t = faultEntry .partitionAssert s) ∨
        (s.cmd.op = .decrypt ∧ s.inp.length % s.blksz = 0 ∧ s.cmd.olp = true ∧
          s.inp.length < s.origlen ∧ t = faultEntry .unpadRange s) ∨
        (s.cmd.op = .decrypt ∧ s.inp.length % s.blksz = 0 ∧
          (s.cmd.olp = true → s.origlen ≤ s.inp.length) ∧ t = beginBlocks s.inp s)) := by
  unfold prepStep at h
  split at h
  · cases h
  next hb =>
    refine ⟨hb, ?_⟩
    split at h
    next hop => exact .inl ⟨hop, by simpa using h.symm⟩
    next hop =>
      split at h
      next hm => exact .inr (.inl ⟨hop, hm, by simpa using h.symm⟩)
      next hm =>
        split at h
        next ho =>
          exact .inr (.inr (.inl ⟨hop, not_not.mp hm, ho.1, ho.2, by simpa using h.symm⟩))
        next ho =>
          refine .inr (.inr (.inr ⟨hop, not_not.mp hm, fun hl => ?_, by simpa using h.symm⟩))
          exact not_lt.mp fun hlt => ho ⟨hl, hlt⟩

/-- What a block step answers: `Fail`, or an output as long as the block and the next chain value, which
is present exactly in CBC and as long as the block. -/
theorem blockStep_ok {bt : BlockTransform} {op : Op} {mode : Mode} {b key o : Bytes}
    {prev prev' : Option Bytes} (h : blockStep bt op mode b key prev = .ok (some (o, prev'))) :
    o.length = b.length ∧
      ((mode = .ecb ∧ ecbStep bt op b key = some o ∧ prev' = none) ∨
        ∃ v v', mode = .cbc ∧ prev = some v ∧ v.length = b.length ∧
          cbcStep bt op b key v = some (o, v') ∧ prev' = some v' ∧ v'.length = b.length) := by
  unfold blockStep at h
  split at h
  · obtain ⟨x, hx, hxe⟩ := Option.map_eq_some_iff.mp (Except.ok.inj h)
    obtain ⟨rfl, rfl⟩ := Prod.mk.inj hxe
    refine ⟨?_, .inl ⟨rfl, hx, rfl⟩⟩
    cases op
    · exact BlockTransform.E_length hx
    · exact BlockTransform.D_length hx
  · split at h
    · cases h
    next v =>
      split at h
      next hl =>
        obtain ⟨⟨x, v'⟩, hx, hxe⟩ := Option.map_eq_some_iff.mp (Except.ok.inj h)
        obtain ⟨rfl, rfl⟩ := Prod.mk.inj hxe
        have hlen : x.length = b.length ∧ v'.length = b.length := by
          cases op
          · simp only [cbcStep, cbcEncStep] at hx
            split at hx
            · cases hx
            next c hc =>
              obtain ⟨rfl, rfl⟩ := Prod.mk.inj (Option.some.inj hx)
              have hcl := BlockTransform.E_length hc
              rw [xorBytes_length hl.symm] at hcl
              exact ⟨hcl, hcl⟩
          · simp only [cbcStep, cbcDecStep] at hx
            split at hx
            · cases hx
            next d hd =>
              obtain ⟨rfl, rfl⟩ := Prod.mk.inj (Option.some.inj hx)
              have hdl := BlockTransform.D_length hd
              exact ⟨by rw [xorBytes_length (hdl.trans hl.symm), hdl], rfl⟩
        exact ⟨hlen.1, .inr ⟨v, v', rfl, rfl, hl, hx, rfl, hlen.2⟩⟩
      · cases h

theorem processStep_next {bt : BlockTransform} {s t : State} (h : processStep bt s = .next t) :
    (∃ b, s.bidx < s.nblk ∧ slice s.work s.blksz s.bidx = some b ∧
      ((blockStep bt s.cmd.op s.cmd.mode b s.key s.prev = .ok none ∧
          t = errorEntry .transformFailure s) ∨
        ∃ o prev', blockStep bt s.cmd.op s.cmd.mode b s.key s.prev = .ok (some (o, prev')) ∧
          t = blockDone o prev' s)) ∨
      (s.bidx = s.nblk ∧ t = loopExit s) := by
  unfold processStep at h
  split at h
  next hlt =>
    split at h
    · cases h
    next b hb =>
      refine .inl ⟨b, hlt, hb, ?_⟩
      split at h
      · cases h
      next hs => exact .inl ⟨hs, by simpa using h.symm⟩
      next o p hs => exact .inr ⟨o, p, hs, by simpa using h.symm⟩
  · split at h
    next he => exact .inr ⟨he, by simpa using h.symm⟩
    · cases h

theorem finishStep_next {s t : State} (h : finishStep s = .next t) :
    (s.cmd.op = .decrypt ∧ s.cmd.olp = true ∧ s.origlen ≤ s.out.length ∧
        t = { s with out := unpad s.out s.origlen, phase := .done }) ∨
      (¬(s.cmd.op = .decrypt ∧ s.cmd.olp = true) ∧ t = { s with phase := .done }) := by
  unfold finishStep at h
  split at h
  next hc =>
    split at h
    next hl => exact .inl ⟨hc.1, hc.2, hl, by simpa using h.symm⟩
    · cases h
  next hc => exact .inr ⟨hc, by simpa using h.symm⟩

/-- The engine is never refused: its steps are enabled unconditionally (R241). -/
theorem engineStep_not_refused (bt : BlockTransform) (s : State) (r : Refusal) :
    engineStep bt s ≠ .refused r := by
  unfold engineStep validateStep prepStep processStep finishStep
  intro h
  split at h <;> (repeat' split at h) <;> cases h

/-- Every next step of a command is its START in an open phase, or the engine's step of the command in
`CMD` in a busy phase. -/
theorem commandStep_next {bt : BlockTransform} {c : Command} {s t : State}
    (h : commandStep bt c s = .next t) :
    (s.phase.hostOpen = true ∧ t = startCommand c s) ∨
      (s.phase.busy = true ∧ s.cmd = c ∧ engineStep bt s = .next t) := by
  unfold commandStep at h
  split at h
  next ho => exact .inl ⟨ho, by simpa using h.symm⟩
  · split at h
    next hb => exact .inr ⟨hb.1, hb.2, h⟩
    · cases h

/-- While the engine runs a command, that command's next step is the engine's. -/
theorem commandStep_busy {bt : BlockTransform} {s : State} (h : s.phase.busy = true) :
    commandStep bt s.cmd s = engineStep bt s := by
  unfold commandStep
  have ho : s.phase.hostOpen = false := by
    revert h
    cases s.phase <;> simp [Phase.busy, Phase.hostOpen]
  simp [ho, h]

theorem commandStep_open {bt : BlockTransform} {c : Command} {s : State}
    (h : s.phase.hostOpen = true) : commandStep bt c s = .next (startCommand c s) := by
  simp [commandStep, h]

/-- `exec` is the next step of the instruction at the implementation's transform. -/
theorem exec_eq_execWith (i : Instr) (s : State) : exec i s = execWith Config.transform i s := by
  cases i <;> rfl

theorem exec_cmd_instr {s : State} (h : s.phase.busy = true) :
    exec s.cmd.instr s = engineStep Config.transform s := by
  rw [exec_eq_execWith, execWith, instr_ofInstr, commandStep_busy h]

theorem exec_open (i : Instr) {s : State} (h : s.phase.hostOpen = true) :
    exec i s = .next (startCommand (Command.ofInstr i) s) := by
  rw [exec_eq_execWith, execWith, commandStep_open h]

end Sys2Proof.Machine
end

