-- ==== Sys2Proof/Laws/HostMoves.lean ====
section
/-! SUPPORT. Everything a host move and a turn can do, one inversion lemma per function. -/

namespace Sys2Proof.Machine

theorem loadBuffer_next {capacity : Nat} {bytes : Bytes} {store : State → State} {s t : State}
    (h : loadBuffer capacity bytes store s = .next t) :
    s.phase.hostOpen = true ∧ bytes.length ≤ capacity ∧ t = store s := by
  unfold loadBuffer at h
  split at h
  next ho =>
    split at h
    next hl => exact ⟨ho, hl, by simpa using h.symm⟩
    · cases h
  · cases h

theorem hostLoad_next {c : Capacities} {port : BitVec 4} {bytes : Bytes} {s t : State}
    (h : hostLoad c port bytes s = .next t) :
    s.phase.hostOpen = true ∧
      ((Reg.ofNumber port = some .keyport ∧ bytes.length ≤ c.keyMax ∧ t = { s with key := bytes }) ∨
        (Reg.ofNumber port = some .ivport ∧ bytes.length ≤ c.ivMax ∧ t = { s with iv := bytes }) ∨
        (Reg.ofNumber port = some .inport ∧ bytes.length ≤ c.inMax ∧ t = { s with inp := bytes })) := by
  unfold hostLoad at h
  split at h
  · cases h
  next hp => have := loadBuffer_next h; exact ⟨this.1, .inl ⟨hp, this.2⟩⟩
  next hp => have := loadBuffer_next h; exact ⟨this.1, .inr (.inl ⟨hp, this.2⟩)⟩
  next hp => have := loadBuffer_next h; exact ⟨this.1, .inr (.inr ⟨hp, this.2⟩)⟩
  · cases h

theorem setRegister_next {inRange : Bool} {store : State → State} {s t : State}
    (h : setRegister inRange store s = .next t) :
    s.phase.hostOpen = true ∧ inRange = true ∧ t = store s := by
  unfold setRegister at h
  split at h
  next ho =>
    split at h
    next hl => exact ⟨ho, hl, by simpa using h.symm⟩
    · cases h
  · cases h

theorem hostSet_next {c : Capacities} {reg : BitVec 4} {n : Nat} {s t : State}
    (h : hostSet c reg n s = .next t) :
    s.phase.hostOpen = true ∧
      ((Reg.ofNumber reg = some .blksz ∧ n ≤ c.bsMax ∧ t = { s with blksz := n }) ∨
        (Reg.ofNumber reg = some .origlen ∧ n < 2 ^ c.lenW ∧ t = { s with origlen := n })) := by
  unfold hostSet at h
  split at h
  · cases h
  next hp =>
    obtain ⟨ho, hr, ht⟩ := setRegister_next h
    exact ⟨ho, .inl ⟨hp, of_decide_eq_true hr, ht⟩⟩
  next hp =>
    obtain ⟨ho, hr, ht⟩ := setRegister_next h
    exact ⟨ho, .inr ⟨hp, of_decide_eq_true hr, ht⟩⟩
  · cases h

theorem hostStart_next {ex : Instr → State → Result} {w : BitVec 8} {s t : State}
    (h : hostStart ex w s = .next t) :
    s.phase.hostOpen = true ∧ ∃ i rest, decode [w] = .ok (i, rest) ∧ ex i s = .next t := by
  unfold hostStart at h
  split at h
  next ho =>
    split at h
    next i rest hd => exact ⟨ho, i, rest, hd, h⟩
    · cases h
  · cases h

theorem hostRead_next {reg : BitVec 4} {s t : State} (h : hostRead reg s = .next t) :
    ∃ r v, Reg.ofNumber reg = some r ∧ readRefusal s.phase r = none ∧ s.regValue r = some v ∧
      t = deliver v s := by
  unfold hostRead at h
  split at h
  · cases h
  next r hr =>
    split at h
    · cases h
    next hn hv => exact ⟨r, _, hr, hn, hv, by simpa using h.symm⟩
    · cases h

/-- Everything a turn can do, guards included. -/
theorem takeTurn_next {c : Capacities} {ex : Instr → State → Result} {s t : State}
    (h : takeTurn c ex s = .next t) :
    (s.turns = [] ∧ engineTurn ex s = .next t) ∨
      (∃ rest, s.turns = .engine :: rest ∧ engineTurn ex { s with turns := rest } = .next t) ∨
      (∃ rest, s.turns = .wait :: rest ∧ t = waitTurn rest s) ∨
      ∃ m rest, s.turns = .host m :: rest ∧ hostMove c ex m { s with turns := rest } = .next t := by
  unfold takeTurn at h
  split at h
  next hs => exact .inl ⟨hs, h⟩
  next rest hs => exact .inr (.inl ⟨rest, hs, h⟩)
  next m rest hs => exact .inr (.inr (.inr ⟨m, rest, hs, h⟩))
  next rest hs => exact .inr (.inr (.inl ⟨rest, hs, by simpa using h.symm⟩))

/-- An engine turn at the implementation's parameters is the engine's step, quiescent phases included. -/
theorem engineTurn_exec (s : State) : engineTurn exec s = engineStep Config.transform s := by
  unfold engineTurn
  split
  next h => exact exec_cmd_instr h
  next h =>
    revert h
    unfold engineStep
    cases s.phase <;> simp [Phase.busy]

end Sys2Proof.Machine
end

