-- ==== Sys2Proof/Laws/Memory.lean ====
section
/-! SUPPORT. Every memory operation keeps the canonical form of memory and its capacities (R7, R60). -/

namespace Sys2Proof.Machine

theorem errorEntry_memoryWf {c : Capacities} {s : State} (k : ModeError) (h : s.memoryWf c = true) :
    (errorEntry k s).memoryWf c = true := by
  simp_all [memoryWf_iff]

theorem faultEntry_memoryWf {c : Capacities} {s : State} (f : FaultCause) (h : s.memoryWf c = true) :
    (faultEntry f s).memoryWf c = true := by
  simp_all [memoryWf_iff]

theorem startCommand_memoryWf {c : Capacities} {s : State} (cmd : Command)
    (h : s.memoryWf c = true) : (startCommand cmd s).memoryWf c = true := by
  simp_all [memoryWf_iff]

theorem resetMachine_memoryWf (c : Capacities) (s : State) :
    (resetMachine s).memoryWf c = true := by
  simp [memoryWf_iff, State.reset]

/-- A load within the port's capacity, whichever port it names. -/
theorem hostLoad_memoryWf {c : Capacities} {port : BitVec 4} {bytes : Bytes} {s t : State}
    (h : s.memoryWf c = true) (ht : hostLoad c port bytes s = .next t) : t.memoryWf c = true := by
  obtain ⟨-, ⟨-, hl, rfl⟩ | ⟨-, hl, rfl⟩ | ⟨-, hl, rfl⟩⟩ := hostLoad_next ht <;>
    simp_all [memoryWf_iff]

/-- The padded message of a message and a block size within capacity fits `OUT_MAX` (R142). -/
theorem pad_length_le_outMax {c : Capacities} {m : Bytes} {bs : Nat} (h : 0 < bs) (hb : bs ≤ c.bsMax)
    (hm : m.length ≤ c.inMax) : (pad m bs).length ≤ c.outMax := by
  have := paddedLength_lt (n := m.length) h
  rw [pad_length h]
  unfold Capacities.outMax
  omega

theorem beginBlocks_memoryWf {c : Capacities} {s : State} {w : Bytes} (h : s.memoryWf c = true)
    (hw : w.length ≤ c.outMax) : (beginBlocks w s).memoryWf c = true := by
  simp_all [memoryWf_iff]

theorem blockDone_memoryWf {c : Capacities} {s : State} {o : Bytes} (p : Option Bytes)
    (h : s.memoryWf c = true) (ho : s.out.length + o.length ≤ c.outMax) :
    (blockDone o p s).memoryWf c = true := by
  simp_all [memoryWf_iff]

theorem loopExit_memoryWf {c : Capacities} {s : State} (h : s.memoryWf c = true) :
    (loopExit s).memoryWf c = true := by
  simp_all [memoryWf_iff]

/-- The FINISH step only shortens `OUT` (R63). -/
theorem finishStep_memoryWf {c : Capacities} {s t : State} (h : s.memoryWf c = true)
    (ht : finishStep s = .next t) : t.memoryWf c = true := by
  obtain ⟨-, -, -, rfl⟩ | ⟨-, rfl⟩ := finishStep_next ht
  · simp only [memoryWf_iff, unpad_length] at h ⊢
    omega
  · simpa [memoryWf_iff] using h

end Sys2Proof.Machine
end

