-- ==== Sys2Proof/Laws/PerInstr.lean ====
section
/-! SUPPORT. One lemma per instruction: its word is the one its row of spec/opcode_table.json gives, in
every bit the row's mask fixes (R92). -/

namespace Sys2Proof.Laws.MatchesTable

/-- The value of the fixed bits of each row, under the mask 0xF3 all four rows have. -/
def rowMatch : Instr → BitVec 8
  | .encEcb _ _ => 0x00#8
  | .decEcb _ _ => 0x01#8
  | .encCbc _ _ => 0x02#8
  | .decCbc _ _ => 0x03#8

/-- The encoding has the row's fixed bits. -/
def Statement (i : Instr) : Prop := encode i &&& 0xF3#8 = rowMatch i

theorem encEcb (ivp olp : Bool) : Statement (.encEcb ivp olp) := by
  cases ivp <;> cases olp <;> rfl

theorem decEcb (ivp olp : Bool) : Statement (.decEcb ivp olp) := by
  cases ivp <;> cases olp <;> rfl

theorem encCbc (ivp olp : Bool) : Statement (.encCbc ivp olp) := by
  cases ivp <;> cases olp <;> rfl

theorem decCbc (ivp olp : Bool) : Statement (.decCbc ivp olp) := by
  cases ivp <;> cases olp <;> rfl

end Sys2Proof.Laws.MatchesTable
end

