-- ==== Sys2Proof/Tests/Slice0.lean ====
section
/-! SUPPORT. The model's own tests. Expected values are those of spec/95_test_vectors.md (V<n>, S<n>) or of
the rule cited; then, for every statement with hypotheses, a witness that meets them all together. -/

namespace Sys2Proof.Machine

/-! ## Well-formedness: an ill-formed term for each check, which the check refuses -/

theorem test_wf_word_reserved_bit_4 : commandWordWellFormed 0x10#8 = false := by decide

theorem test_wf_word_reserved_bit_7 : commandWordWellFormed 0x86#8 = false := by decide

theorem test_wf_word_legal : commandWordWellFormed 0x0F#8 = true := by decide

theorem test_wf_text_flag_twice :
    CommandText.wellFormed ⟨.encrypt, .cbc, [.iv, .iv]⟩ = false ∧
      CommandText.wellFormed ⟨.encrypt, .cbc, [.olen, .iv, .olen]⟩ = false ∧
      CommandText.wellFormed ⟨.decrypt, .cbc, [.olen, .iv]⟩ = true := by decide

/-- The smallest capacities R7 allows: `BS_MAX` 1, `KEY_MAX` 1, `IV_MAX` 2, `IN_MAX` 0, `LEN_W` 2. -/
def smallest : Capacities := {}

theorem test_wf_load_over_capacity :
    HostMove.wellFormed smallest (.load 0xA#4 [1#8, 2#8]) = false ∧
      HostMove.wellFormed smallest (.load 0xB#4 [1#8, 2#8, 3#8]) = false ∧
      HostMove.wellFormed smallest (.load 0xC#4 [1#8]) = false ∧
      HostMove.wellFormed smallest (.load 0xB#4 [1#8, 2#8]) = true := by decide

theorem test_wf_load_no_load_port :
    HostMove.wellFormed smallest (.load 0x4#4 []) = false ∧
      HostMove.wellFormed smallest (.load 0xD#4 []) = false := by decide

theorem test_wf_set_out_of_range :
    HostMove.wellFormed smallest (.set 0x4#4 2) = false ∧
      HostMove.wellFormed smallest (.set 0x5#4 4) = false ∧
      HostMove.wellFormed smallest (.set 0x5#4 3) = true := by decide

theorem test_wf_set_other_register : HostMove.wellFormed smallest (.set 0x0#4 0) = false := by decide

theorem test_wf_start_reserved : HostMove.wellFormed smallest (.start 0xFF#8) = false := by decide

theorem test_wf_read_load_port_or_reserved :
    HostMove.wellFormed smallest (.read 0xA#4) = false ∧
      HostMove.wellFormed smallest (.read 0xE#4) = false ∧
      HostMove.wellFormed smallest (.read 0x9#4) = true ∧
      HostMove.wellFormed smallest (.read 0xD#4) = true := by decide

/-! ## Decoding: words written out bit by bit from R91 (bits 7:4, OLP, IVP, MODE, OP) -/

theorem test_decode_enc_ecb :
    decodeWord 0b00000000#8 = .ok (.encEcb false false) ∧
      decodeWord 0b00000100#8 = .ok (.encEcb true false) ∧
      decodeWord 0b00001000#8 = .ok (.encEcb false true) ∧
      decodeWord 0b00001100#8 = .ok (.encEcb true true) := ⟨rfl, rfl, rfl, rfl⟩

theorem test_decode_dec_ecb :
    decodeWord 0b00000001#8 = .ok (.decEcb false false) ∧
      decodeWord 0b00000101#8 = .ok (.decEcb true false) ∧
      decodeWord 0b00001001#8 = .ok (.decEcb false true) ∧
      decodeWord 0b00001101#8 = .ok (.decEcb true true) := ⟨rfl, rfl, rfl, rfl⟩

theorem test_decode_enc_cbc :
    decodeWord 0b00000010#8 = .ok (.encCbc false false) ∧
      decodeWord 0b00000110#8 = .ok (.encCbc true false) ∧
      decodeWord 0b00001010#8 = .ok (.encCbc false true) ∧
      decodeWord 0b00001110#8 = .ok (.encCbc true true) := ⟨rfl, rfl, rfl, rfl⟩

theorem test_decode_dec_cbc :
    decodeWord 0b00000011#8 = .ok (.decCbc false false) ∧
      decodeWord 0b00000111#8 = .ok (.decCbc true false) ∧
      decodeWord 0b00001011#8 = .ok (.decCbc false true) ∧
      decodeWord 0b00001111#8 = .ok (.decCbc true true) := ⟨rfl, rfl, rfl, rfl⟩

theorem test_decode_reserved :
    decodeWord 0b00010000#8 = .error .reservedBits ∧ decodeWord 0b10000011#8 = .error .reservedBits ∧
      decode [] = .error .noWord := ⟨rfl, rfl, rfl⟩

theorem test_table_word :
    decodeTableWord 8 0x0F = some (.decCbc true true) ∧ decodeTableWord 8 0x1F = none := by decide

/-- `ENC.CBC +iv` and `DEC.CBC +iv +olen` assemble to 0x06 and 0x0F (V14, V15). -/
theorem test_assemble :
    CommandText.word ⟨.encrypt, .cbc, [.iv]⟩ = 0x06 ∧
      CommandText.word ⟨.decrypt, .cbc, [.olen, .iv]⟩ = 0x0F := by decide

/-! ## The test transforms of 95_test_vectors.md section 1, and its common operands -/

/-- Byte `i` of the answer is `f` of byte `i` of the block and byte `i` of the key. -/
def perByte (f : Byte → Byte → Byte) : Bytes → Bytes → Bytes
  | [], _ => []
  | x :: b, [] => x :: perByte f b []
  | x :: b, k :: key => f x k :: perByte f b key

theorem perByte_length (f : Byte → Byte → Byte) :
    ∀ b key : Bytes, (perByte f b key).length = b.length
  | [], _ => rfl
  | _ :: b, [] => congrArg (· + 1) (perByte_length f b [])
  | _ :: b, _ :: key => congrArg (· + 1) (perByte_length f b key)

theorem perByte_undo {f g : Byte → Byte → Byte} (h : ∀ x k, g (f x k) k = x) :
    ∀ b key : Bytes, perByte g (perByte f b key) key = b
  | [], _ => rfl
  | x :: b, [] => congrArg (x :: ·) (perByte_undo h b [])
  | x :: b, k :: key => congrArg₂ List.cons (h x k) (perByte_undo h b key)

/-- T1 `XORK`. -/
def xork : BlockTransform where
  encryptBlock b key := some ⟨perByte (· ^^^ ·) b key, perByte_length _ b key⟩
  decryptBlock b key := some ⟨perByte (· ^^^ ·) b key, perByte_length _ b key⟩

/-- T2 `ADD8`. -/
def add8 : BlockTransform where
  encryptBlock b key := some ⟨perByte (· + ·) b key, perByte_length _ b key⟩
  decryptBlock b key := some ⟨perByte (· - ·) b key, perByte_length _ b key⟩

/-- T3 `FAILFF`. -/
def failff : BlockTransform where
  encryptBlock b key := if b.head? = some 0xFF#8 then none else xork.encryptBlock b key
  decryptBlock b key := if b.head? = some 0xFF#8 then none else xork.decryptBlock b key

/-- `INV(E, D)` holds of `ADD8` (95_test_vectors.md section 1). -/
theorem add8_invertible (c : Capacities) : add8.Invertible c := by
  intro b key x _ _ _ h
  obtain rfl : perByte (· + ·) b key = x := Option.some.inj h
  exact congrArg some (perByte_undo (fun x k => BitVec.add_sub_cancel x k) b key)

def k8 : Bytes := [0x10, 0x32, 0x54, 0x76, 0x98, 0xBA, 0xDC, 0xFE]
def iv8 : Bytes := [0x01, 0x02, 0x03, 0x04, 0x05, 0x06, 0x07, 0x08]
def helloWorld : Bytes := [0x48, 0x45, 0x4C, 0x4C, 0x4F, 0x20, 0x57, 0x4F, 0x52, 0x4C, 0x44, 0x21]
def k4 : Bytes := [0xA0, 0xB1, 0xC2, 0xD3, 0xE4]
def iv4 : Bytes := [0x0F, 0x1E, 0x2D, 0x3C]

/-- The ciphertext of V14, as V15 loads it. -/
def cipher14 : Bytes :=
  [0x59, 0x79, 0xA3, 0xBE, 0xE2, 0xE0, 0x2C, 0x45, 0x1B, 0x67, 0x3B, 0x15, 0x7A, 0x9A, 0x08, 0x43]

/-- The state answers next and the next state has the property. -/
def nextHas (r : Result) (p : State → Bool) : Bool :=
  match r with
  | .next t => p t
  | .fault _ => false
  | .refused _ => false

/-- A state with `BLKSZ` 8 and `K8`, `IV8` loaded, in the given phase of the given command. -/
def at8 (i : Instr) (p : Phase) (inp : Bytes) : State :=
  { State.reset with
    blksz := 8, key := k8, iv := iv8, inp := inp, origlen := 12, cmd := Command.ofInstr i, phase := p }

/-- The same in PROCESS of two blocks, block `n` next. -/
def processing8 (i : Instr) (work : Bytes) (n : Nat) (prev : Option Bytes) (out : Bytes) : State :=
  { at8 i .process [] with work := work, nblk := 2, bidx := n, prev := prev, out := out }

/-! ## One step of each instruction -/

/-- V10, `ADD8`, block 0. -/
theorem test_enc_ecb_block : nextHas
    (execWith add8 (.encEcb false false)
      (processing8 (.encEcb false false) (pad helloWorld 8) 0 none []))
    (fun t => t.out = [0x58, 0x77, 0xA0, 0xC2, 0xE7, 0xDA, 0x33, 0x4D] ∧ t.bidx = 1) = true := by
  decide

/-- V23 (a): `FAILFF` at block 1 ends in ERROR with code 4, `OUT` emptied and `BIDX` 1. -/
theorem test_enc_ecb_failure : nextHas
    (execWith failff (.encEcb false false)
      { at8 (.encEcb false false) .process [] with
        blksz := 4, key := k4, nblk := 3, bidx := 1, out := [0xA1, 0xB3, 0xC1, 0xD7]
        work := [0x01, 0x02, 0x03, 0x04, 0xFF, 0x00, 0x00, 0x00, 0x0A, 0x0B, 0x0C, 0x0D] })
    (fun t => t.phase = .error ∧ errCode t.err = 4#3 ∧ t.out = [] ∧ t.work = [] ∧ t.bidx = 1)
      = true := by decide

/-- V11, `ADD8`, block 0: `D`, not `E`. -/
theorem test_dec_ecb_block : nextHas
    (execWith add8 (.decEcb false true)
      (processing8 (.decEcb false true)
        [0x58, 0x77, 0xA0, 0xC2, 0xE7, 0xDA, 0x33, 0x4D, 0x62, 0x7E, 0x98, 0x97, 0x98, 0xBA, 0xDC, 0xFE]
        0 none []))
    (fun t => t.out = [0x48, 0x45, 0x4C, 0x4C, 0x4F, 0x20, 0x57, 0x4F]) = true := by decide

/-- V22 (b): both length conditions hold, and `PartitionAssert` is the cause. -/
theorem test_dec_ecb_fault : nextHas
    (execWith add8 (.decEcb false true)
      { at8 (.decEcb false true) .prep (zeros 17) with origlen := 18 })
    (fun t => t.phase = .fault ∧ fcauseCode t.fcause = 1#2 ∧ t.err = none) = true := by decide

/-- V14, step 4: block 1 with the chain value block 0 left. -/
theorem test_enc_cbc_block : nextHas
    (execWith add8 (.encCbc true false)
      (processing8 (.encCbc true false) (pad helloWorld 8) 1
        (some [0x59, 0x79, 0xA3, 0xBE, 0xE2, 0xE0, 0x2C, 0x45])
        [0x59, 0x79, 0xA3, 0xBE, 0xE2, 0xE0, 0x2C, 0x45]))
    (fun t => t.out = cipher14 ∧ t.prev = some [0x1B, 0x67, 0x3B, 0x15, 0x7A, 0x9A, 0x08, 0x43] ∧
      t.bidx = 2) = true := by decide

/-- V3: `ENC.CBC` with an IV loaded but not declared is `InvalidIV`. -/
theorem test_enc_cbc_missing_iv : nextHas
    (execWith add8 (.encCbc false false) (at8 (.encCbc false false) .validate helloWorld))
    (fun t => t.phase = .error ∧ errCode t.err = 3#3) = true := by decide

/-- V15, step 3: the next chain value is the block that came in. -/
theorem test_dec_cbc_block : nextHas
    (execWith add8 (.decCbc true true) (processing8 (.decCbc true true) cipher14 0 (some iv8) []))
    (fun t => t.out = [0x48, 0x45, 0x4C, 0x4C, 0x4F, 0x20, 0x57, 0x4F] ∧
      t.prev = some [0x59, 0x79, 0xA3, 0xBE, 0xE2, 0xE0, 0x2C, 0x45]) = true := by decide

/-- V15, step 6: FINISH cuts the padded message to `ORIGLEN` 12. -/
theorem test_dec_cbc_finish : nextHas
    (execWith add8 (.decCbc true true)
      { at8 (.decCbc true true) .finish cipher14 with out := pad helloWorld 8 })
    (fun t => t.phase = .done ∧ t.out = helloWorld) = true := by decide

/-- The word 0x03 presented straight after reset is run as `DEC.CBC` (R71, R273). -/
theorem test_withFetchWord_runs :
    step (State.reset.withFetchWord 8 0x03) = exec (.decCbc false false) State.reset := rfl

/-! ## The functions the steps are made of -/

/-- V6. -/
theorem test_pad : pad [1, 2, 3, 4, 5] 4 = [1, 2, 3, 4, 5, 0, 0, 0] ∧ pad [1, 2, 3, 4] 4 = [1, 2, 3, 4] ∧
    pad [] 16 = [] ∧ npad 5 4 = 3 := by decide

/-- V6. -/
theorem test_pad_machine : (padFsm [1, 2, 3, 4, 5] 4).out = [1, 2, 3, 4, 5, 0, 0, 0] ∧
    (padFsm [1, 2, 3, 4] 4).st = .stop ∧ (padFsm [] 16).out = [] := by decide

/-- V2 to V4. -/
theorem test_validate :
    validate .cbc 16 15 (some [1, 2, 3]) = .error .invalidKey ∧
      validate .cbc 0 0 none = .error .invalidConfig ∧
      validate .cbc 1 1 (some [1, 2]) = .error .invalidIV ∧ validate .ecb 1 2 none = .ok () :=
  ⟨rfl, rfl, rfl, rfl⟩

/-- V9. -/
theorem test_slice :
    slice [0xAA, 0xBB, 0xCC, 0xDD, 0xEE, 0xFF, 0x11, 0x22, 0x33, 0, 0, 0] 4 2 = some [0x33, 0, 0, 0] ∧
      slice [0xAA, 0xBB, 0xCC] 2 1 = none ∧ toBlocks [0xAA, 0xBB] 1 = [[0xAA], [0xBB]] := by decide

/-- V10, `XORK`. -/
theorem test_enc_ecb_result : encEcbResult xork 8 k8 helloWorld =
    .ok [0x58, 0x77, 0x18, 0x3A, 0xD7, 0x9A, 0x8B, 0xB1, 0x42, 0x7E, 0x10, 0x57, 0x98, 0xBA, 0xDC,
      0xFE] := by decide

/-- V14. -/
theorem test_enc_cbc_result :
    encCbcResult add8 8 k8 (some iv8) helloWorld = .ok cipher14 := by decide

/-- V15. -/
theorem test_dec_cbc_result :
    decCbcResult add8 8 k8 (some iv8) cipher14 (some 12) = .ok helloWorld := by decide

/-- V11. -/
theorem test_dec_ecb_result : decEcbResult add8 8 k8
    [0x58, 0x77, 0xA0, 0xC2, 0xE7, 0xDA, 0x33, 0x4D, 0x62, 0x7E, 0x98, 0x97, 0x98, 0xBA, 0xDC, 0xFE]
    (some 12) = .ok helloWorld := by decide

/-- V20: three blocks of one byte. -/
theorem test_block_size_one :
    encCbcResult add8 1 [0x5A] (some [0x0F]) [1, 2, 3] = .ok [0x68, 0xC4, 0x21] := by decide

/-! ## Witnesses: for every statement with hypotheses, a case that meets them all together -/

/-- `BLKSZ` 1, a key and an IV of one byte, no message: operands that fit every hardware R7 allows. -/
def ready : State := { State.reset with blksz := 1, key := [0xAA], iv := [0x55] }

/-- The same in a given phase, `ENC.ECB` in `CMD`, with the code registers the phase asks for. -/
def readyAt (p : Phase) : State :=
  { ready with
    phase := p
    err := if p = .error then some .invalidKey else none
    fcause := if p = .fault then some .unpadRange else none }

/-- The host asks `m` next. -/
def asks (m : HostMove) (s : State) : State := { s with turns := [.host m] }

theorem one_le_keyMax (c : Capacities) : 1 ≤ c.keyMax := c.bsMax_pos.trans c.bsMax_le_keyMax

theorem two_le_ivMax (c : Capacities) : 2 ≤ c.ivMax := by
  have := c.bsMax_pos
  have := c.bsMax_lt_ivMax
  omega

/-- The operands of `ready` meet the invariant in every phase but PROCESS. -/
theorem inv_readyAt (c : Capacities) (p : Phase) (h : p ≠ .process) : Inv c (readyAt p) := by
  have := one_le_keyMax c
  have := two_le_ivMax c
  have := c.bsMax_pos
  have := Nat.two_pow_pos c.lenW
  constructor
  · constructor <;> simp [readyAt, ready, State.reset, h]
  all_goals simp [readyAt, ready, State.reset, h]
  all_goals first | rfl | omega | (intro _; rfl)

theorem test_witness_EncodedCommandDecodesToItself :
    (Instr.decCbc true false).wellFormed = true ∧ (Instr.encEcb false true).wellFormed = true := by
  decide

theorem test_witness_WordIsCommandExactlyWhenReservedBitsAreZero :
    commandWordWellFormed 0x0F#8 = true ∧ commandWordWellFormed 0x10#8 = false := by decide

theorem test_witness_WrittenCommandAssemblesToItsWord :
    CommandText.wellFormed ⟨.decrypt, .cbc, [.iv, .olen]⟩ = true := by decide

theorem test_witness_RegisterNumbersNameTheRegisters : Reg.ofNumber 0xD#4 = some .outport := by decide

theorem test_witness_StepRunsDecodedCommand :
    (asks (.start 0x0B#8) ready).turns = .host (.start 0x0B#8) :: [] ∧
      (asks (.start 0x0B#8) ready).phase.hostOpen = true ∧
      decode [0x0B#8] = .ok (.decCbc false true, []) ∧ (Instr.decCbc false true).wellFormed = true :=
  ⟨rfl, rfl, rfl, rfl⟩

theorem test_witness_EngineTurnRunsTheCommandRegister :
    ((readyAt .validate).turns = [] ∧ (readyAt .validate).phase.busy = true) ∧
      ({ readyAt .finish with turns := [.engine] }.turns = .engine :: [] ∧
        (readyAt .finish).phase.busy = true) ∧
      ((readyAt .fault).turns = [] ∧ (readyAt .fault).phase.busy = false) ∧
      { readyAt .done with turns := [.engine] }.turns = .engine :: [] ∧
      (readyAt .done).phase.busy = false := by decide

theorem test_witness_EveryCommandStartsInAnOpenPhase :
    (readyAt .idle).phase.hostOpen = true ∧ (readyAt .done).phase.hostOpen = true ∧
      (readyAt .error).phase.hostOpen = true := by decide

theorem test_witness_StartWritesTheCommandWordOrIsRefused :
    (asks (.start 0x0F#8) (readyAt .error)).turns = .host (.start 0x0F#8) :: [] ∧
      (readyAt .error).phase.hostOpen = true ∧ commandWordWellFormed 0x0F#8 = true ∧
      (asks (.start 0x0F#8) (readyAt .fault)).phase.hostOpen = false ∧
      commandWordWellFormed 0x10#8 = false := by decide

theorem test_witness_CommandIsLockedOutWhileAnotherRunsAndInFault :
    ((readyAt .prep).phase.busy = true ∧ (readyAt .prep).cmd ≠ Command.ofInstr (.encEcb true false)) ∧
      (readyAt .fault).phase = .fault := by decide

theorem test_witness_ValidateStepOfEveryCommand :
    ((readyAt .validate).phase = .validate ∧
        (readyAt .validate).cmd = Command.ofInstr (.encEcb false false) ∧
        validate (readyAt .validate).cmd.mode (readyAt .validate).blksz (readyAt .validate).key.length
          (readyAt .validate).ivOpt = .ok ()) ∧
      (at8 (.encCbc false false) .validate []).phase = .validate ∧
      (at8 (.encCbc false false) .validate []).cmd = Command.ofInstr (.encCbc false false) ∧
      validate .cbc 8 8 (at8 (.encCbc false false) .validate []).ivOpt = .error .invalidIV :=
  ⟨⟨rfl, rfl, rfl⟩, rfl, rfl, rfl⟩

theorem test_witness_PrepStepOfEncryptCommands :
    (at8 (.encEcb true true) .prep helloWorld).phase = .prep ∧
      0 < (at8 (.encEcb true true) .prep helloWorld).blksz ∧
      (at8 (.encEcb true true) .prep helloWorld).cmd = Command.ofInstr (.encEcb true true) ∧
      (at8 (.encCbc true true) .prep helloWorld).cmd = Command.ofInstr (.encCbc true true) := by decide

/-- `ORIGLEN` 12 within 16 bytes of ciphertext. -/
theorem test_witness_PrepStepOfDecryptCommands :
    (at8 (.decEcb true true) .prep cipher14).phase = .prep ∧
      0 < (at8 (.decEcb true true) .prep cipher14).blksz ∧
      (at8 (.decEcb true true) .prep cipher14).inp.length % 8 = 0 ∧
      (at8 (.decEcb true true) .prep cipher14).origlen ≤ cipher14.length ∧
      (at8 (.decEcb true true) .prep cipher14).cmd = Command.ofInstr (.decEcb true true) ∧
      (at8 (.decCbc true true) .prep cipher14).cmd = Command.ofInstr (.decCbc true true) := by decide

/-- 9 bytes of ciphertext for the first cause; 8 bytes and `ORIGLEN` 9, one too many, for the second. -/
theorem test_witness_DecryptFaultsOnBadLengths :
    (at8 (.decCbc true true) .prep (zeros 9)).phase = .prep ∧
      (at8 (.decCbc true true) .prep (zeros 9)).cmd = Command.ofInstr (.decCbc true true) ∧
      (Command.ofInstr (.decCbc true true)).op = .decrypt ∧
      0 < (at8 (.decCbc true true) .prep (zeros 9)).blksz ∧
      (at8 (.decCbc true true) .prep (zeros 9)).inp.length % 8 ≠ 0 ∧
      (zeros 8).length % 8 = 0 ∧ (Command.ofInstr (.decCbc true true)).olp = true ∧
      (zeros 8).length < { at8 (.decCbc true true) .prep (zeros 8) with origlen := 9 }.origlen := by
  decide

/-- The last block of two: its end is the end of `WORK`. -/
theorem test_witness_ProcessBlockOfEcbCommands :
    (processing8 (.encEcb true false) cipher14 1 none iv8).phase = .process ∧
      (processing8 (.encEcb true false) cipher14 1 none iv8).bidx < 2 ∧
      0 < (processing8 (.encEcb true false) cipher14 1 none iv8).blksz ∧ (1 + 1) * 8 ≤ cipher14.length ∧
      (processing8 (.encEcb true false) cipher14 1 none iv8).cmd = Command.ofInstr (.encEcb true false) ∧
      (processing8 (.decEcb true false) cipher14 1 none iv8).cmd = Command.ofInstr (.decEcb true false) := by
  decide

theorem test_witness_ProcessBlockOfEncCbc :
    (processing8 (.encCbc true false) cipher14 0 (some iv8) []).phase = .process ∧
      (processing8 (.encCbc true false) cipher14 0 (some iv8) []).cmd = Command.ofInstr (.encCbc true false) ∧
      (processing8 (.encCbc true false) cipher14 0 (some iv8) []).bidx < 2 ∧
      (0 + 1) * 8 ≤ (processing8 (.encCbc true false) cipher14 0 (some iv8) []).work.length ∧
      (processing8 (.encCbc true false) cipher14 0 (some iv8) []).prev = some iv8 ∧ iv8.length = 8 := by
  decide

theorem test_witness_ProcessBlockOfDecCbc :
    (processing8 (.decCbc true false) cipher14 1 (some k8) iv8).phase = .process ∧
      (processing8 (.decCbc true false) cipher14 1 (some k8) iv8).cmd = Command.ofInstr (.decCbc true false) ∧
      (processing8 (.decCbc true false) cipher14 1 (some k8) iv8).bidx < 2 ∧
      (1 + 1) * 8 ≤ (processing8 (.decCbc true false) cipher14 1 (some k8) iv8).work.length ∧
      (processing8 (.decCbc true false) cipher14 1 (some k8) iv8).prev = some k8 ∧ k8.length = 8 := by
  decide

theorem test_witness_LoopExitOfEveryCommand :
    (processing8 (.decEcb false false) cipher14 2 none cipher14).phase = .process ∧
      (processing8 (.decEcb false false) cipher14 2 none cipher14).cmd
        = Command.ofInstr (.decEcb false false) ∧
      (processing8 (.decEcb false false) cipher14 2 none cipher14).bidx = 2 := by decide

/-- Both clauses; in the second `ORIGLEN` is all that `OUT` holds. -/
theorem test_witness_FinishStepOfEveryCommand :
    ((readyAt .finish).phase = .finish ∧ (readyAt .finish).cmd = Command.ofInstr (.encEcb false false) ∧
        (readyAt .finish).cmd.op = .encrypt) ∧
      (at8 (.decEcb true true) .finish []).phase = .finish ∧
      (at8 (.decEcb true true) .finish []).cmd = Command.ofInstr (.decEcb true true) ∧
      (at8 (.decEcb true true) .finish []).cmd.olp = true ∧
      (at8 (.decEcb true true) .finish []).origlen ≤ helloWorld.length := by decide

/-- A step of each kind the frame tells apart: a start, VALIDATE, PREP into FAULT, a block, the loop exit
and FINISH. -/
theorem test_witness_CommandStepFrame :
    nextHas (execWith add8 (.decCbc true true) ready) (fun t => t.phase = .validate) = true ∧
      nextHas (execWith add8 (.encEcb false false) (readyAt .validate)) (fun t => t.phase = .prep)
        = true ∧
      nextHas (execWith add8 (.decEcb false false) (at8 (.decEcb false false) .prep (zeros 9)))
        (fun t => t.phase = .fault) = true ∧
      nextHas (execWith add8 (.encCbc true false)
        (processing8 (.encCbc true false) cipher14 1 (some k8) iv8)) (fun t => t.phase = .process)
        = true ∧
      nextHas (execWith add8 (.encCbc true false)
        (processing8 (.encCbc true false) cipher14 2 (some k8) cipher14)) (fun t => t.phase = .finish)
        = true ∧
      nextHas (execWith add8 (.encEcb false false) (readyAt .finish)) (fun t => t.phase = .done)
        = true := by decide

/-- Block 1 of two, after block 0 is stored. -/
theorem test_witness_BlockIsStoredAtItsOwnOffset :
    StateLaws (processing8 (.encCbc true false) cipher14 1 (some k8) iv8) ∧
      (processing8 (.encCbc true false) cipher14 1 (some k8) iv8).phase = .process ∧
      (processing8 (.encCbc true false) cipher14 1 (some k8) iv8).bidx < 2 ∧
      nextHas (execWith add8 (.encCbc true false)
        (processing8 (.encCbc true false) cipher14 1 (some k8) iv8)) (fun t => t.phase = .process)
        = true := by
  refine ⟨?_, by decide, by decide, by decide⟩
  constructor <;> simp [processing8, at8, State.reset, cipher14, k8, iv8, Command.ofInstr]

/-- Each port loaded with exactly as many bytes as its buffer holds. -/
theorem test_witness_LoadReplacesTheWholeBuffer :
    ready.phase.hostOpen = true ∧
      (∀ m, (asks m ready).turns = .host m :: []) ∧
      (List.replicate Config.capacities.keyMax 0x11#8).length ≤ Config.capacities.keyMax ∧
      (List.replicate Config.capacities.ivMax 0x11#8).length ≤ Config.capacities.ivMax ∧
      (List.replicate Config.capacities.inMax 0x11#8).length ≤ Config.capacities.inMax :=
  ⟨rfl, fun _ => rfl, List.length_replicate.le, List.length_replicate.le, List.length_replicate.le⟩

/-- Each clause at a boundary: 0, `BS_MAX` and `BS_MAX + 1`; the largest `ORIGLEN` and one above; a busy
phase. -/
theorem test_witness_SetWritesTheRegisterOrIsRefused :
    (∀ n, (asks (.set Reg.blksz.number n) ready).turns = .host (.set Reg.blksz.number n) :: []) ∧
      (∀ n, (asks (.set Reg.origlen.number n) ready).turns = .host (.set Reg.origlen.number n) :: []) ∧
      ready.phase.hostOpen = true ∧ (readyAt .prep).phase.hostOpen = false ∧
      0 ≤ Config.capacities.bsMax ∧ Config.capacities.bsMax ≤ Config.capacities.bsMax ∧
      Config.capacities.bsMax < Config.capacities.bsMax + 1 ∧
      2 ^ Config.capacities.lenW - 1 < 2 ^ Config.capacities.lenW ∧
      2 ^ Config.capacities.lenW ≤ 2 ^ Config.capacities.lenW :=
  ⟨fun _ => rfl, fun _ => rfl, rfl, rfl, Nat.zero_le _, le_rfl, Nat.lt_succ_self _,
    Nat.sub_one_lt (Nat.two_pow_pos _).ne', le_rfl⟩

/-- Each register is asked for in some phase of each clause: done, busy, and neither. -/
theorem test_witness_ReadsDeliverTheRegisters :
    (∀ (r : Reg) (p : Phase),
      (asks (.read r.number) (readyAt p)).turns = .host (.read r.number) :: []) ∧
      (readyAt .done).phase = .done ∧ (readyAt .fault).phase ≠ .done ∧
      (readyAt .fault).phase.busy = false ∧ (readyAt .process).phase.busy = true :=
  ⟨fun _ _ => rfl, rfl, by decide, rfl, rfl⟩

theorem test_witness_BusyEngineLocksTheHostOut :
    (readyAt .process).phase.busy = true ∧
      (asks (.set 0x4#4 1) (readyAt .process)).turns = .host (.set 0x4#4 1) :: [] := by decide

theorem test_witness_FaultPhaseLocksTheHostOut :
    (readyAt .fault).phase = .fault ∧
      (asks (.read 0x3#4) (readyAt .fault)).turns = .host (.read 0x3#4) :: [] := by decide

/-- One ill-formed move of each kind, at the implementation's capacities. -/
theorem test_witness_IllFormedMovesAreRefused :
    (∀ m, (asks m ready).turns = .host m :: []) ∧
      HostMove.wellFormed Config.capacities (.start 0x10#8) = false ∧
      HostMove.wellFormed Config.capacities (.read 0xE#4) = false ∧
      HostMove.wellFormed Config.capacities (.load 0x4#4 []) = false ∧
      HostMove.wellFormed Config.capacities (.set 0x4#4 (Config.capacities.bsMax + 1)) = false :=
  ⟨fun _ => rfl, rfl, rfl, rfl, decide_eq_false (Nat.not_succ_le_self _)⟩

theorem test_witness_ResetGivesTheResetState :
    (asks .reset (readyAt .fault)).turns = .host .reset :: [] ∧
      (asks .reset (readyAt .prep)).turns = .host .reset :: [] := by decide

theorem test_witness_ReadsRevealNoSecret :
    (asks (.read 0x6#4) ready).turns = .host (.read 0x6#4) :: [] ∧
      [0xBB#8].length = ready.key.length ∧ [0x66#8].length = ready.iv.length ∧
      ([] : Bytes).length = ready.inp.length ∧
      step (asks (.read 0x6#4) ready) = .next { ready with readData := some (.number 1) } :=
  ⟨rfl, rfl, rfl, rfl, rfl⟩

theorem test_witness_EveryStepKeepsTheInvariant :
    Inv Config.capacities (readyAt .validate) ∧
      step (readyAt .validate) = .next { readyAt .validate with phase := .prep } :=
  ⟨inv_readyAt _ _ (by decide), rfl⟩

/-- A state two steps from reset, with an engine step to come; and the host's reset in its place. -/
theorem test_witness_ReachableStatesMeetTheStateLaws :
    Reachable (startCommand (Command.ofInstr (.decEcb true true)) State.reset) ∧
      (startCommand (Command.ofInstr (.decEcb true true)) State.reset).phase.busy = true ∧
      step (startCommand (Command.ofInstr (.decEcb true true)) State.reset) =
        .next (errorEntry .invalidConfig
          (startCommand (Command.ofInstr (.decEcb true true)) State.reset)) :=
  ⟨.step (.turns [.host (.start 0x0D#8)] .reset) rfl, rfl, rfl⟩

theorem test_witness_OperandsAreStableWhileBusy :
    (readyAt .validate).phase.busy = true ∧
      step (readyAt .validate) = .next { readyAt .validate with phase := .prep } ∧
      step (asks .reset (readyAt .prep)) = .next State.reset := ⟨rfl, rfl, rfl⟩

theorem test_witness_FaultIsLeftOnlyByReset :
    (readyAt .fault).phase = .fault ∧ step (readyAt .fault) = .next (readyAt .fault) ∧
      step (asks .reset (readyAt .fault)) = .next State.reset := ⟨rfl, rfl, rfl⟩

theorem test_witness_GoodStatesNeverFaultTheModel : Inv Config.capacities (readyAt .prep) :=
  inv_readyAt _ _ (by decide)

/-- A state for each of the five pictures. -/
theorem test_witness_HostSeesOneOfFivePictures :
    Inv Config.capacities (readyAt .finish) ∧ Inv Config.capacities (readyAt .idle) ∧
      Inv Config.capacities (readyAt .done) ∧ Inv Config.capacities (readyAt .error) ∧
      Inv Config.capacities (readyAt .fault) := by
  refine ⟨?_, ?_, ?_, ?_, ?_⟩ <;> exact inv_readyAt _ _ (by decide)

/-- The smallest block size; and a length at which the minimality clause bites. -/
theorem test_witness_PaddingIsZeroFillToTheNextMultiple :
    0 < 1 ∧ 0 < 4 ∧ 4 ∣ 8 ∧ [1#8, 2#8, 3#8, 4#8, 5#8].length ≤ 8 ∧
      [1#8, 2#8, 3#8, 4#8].length % 4 = 0 := by decide

theorem test_witness_FillerCountIsNpad : 0 < 1 ∧ npad 5 1 = 0 ∧ npad 5 4 = 3 := by decide

theorem test_witness_PaddingMachineComputesPad : 0 < 4 ∧ (pad [1#8] 4).length = 4 := by decide

theorem test_witness_PaddingLaws : 0 < 4 ∧ unpad (pad [1#8] 4) 1 = [1#8] := by decide

theorem test_witness_BlocksRoundTrip :
    0 < 2 ∧ [1#8, 2#8, 3#8, 4#8].length % 2 = 0 ∧
      ∀ b ∈ [[1#8, 2#8], [3#8, 4#8]], b.length = 2 := by decide

theorem test_witness_SliceMultiplexerPresentsTheBlocks :
    0 < 2 ∧ [1#8, 2#8, 3#8, 4#8].length % 2 = 0 := by decide

/-- V12 cut to one-byte blocks: two equal blocks and a different one. -/
theorem test_witness_EcbTransformsEachBlockAlone :
    ecbEncrypt add8 [[0x41], [0x42], [0x41]] [0x10] = some [[0x51], [0x52], [0x51]] ∧
      ecbDecrypt add8 [[0x51], [0x52], [0x51]] [0x10] = some [[0x41], [0x42], [0x41]] ∧
      [[0x41#8], [0x42], [0x41]][0]? = [[0x41#8], [0x42], [0x41]][2]? := by decide

/-- V20 for the first equation. -/
theorem test_witness_CbcEncryptClosedForm :
    cbcEncrypt add8 [[1], [2], [3]] [0x5A] [0x0F] = some [[0x68], [0xC4], [0x21]] := by decide

theorem test_witness_CbcDecryptClosedForm :
    cbcDecrypt add8 [[0x68], [0xC4], [0x21]] [0x5A] [0x0F] = some [[1], [2], [3]] := by decide

/-- V18: byte 0 off by 0x80. -/
theorem test_witness_WrongChainValueFlipsExactlyItsDelta :
    iv8.length = (cipher14.take 8).length ∧
      [0x80#8, 0, 0, 0, 0, 0, 0, 0].length = (cipher14.take 8).length ∧
      cbcDecStep add8 (cipher14.take 8) k8 iv8 = some (helloWorld.take 8, cipher14.take 8) := by decide

theorem test_witness_DifferentIvsGiveDifferentFirstBlocks :
    add8.Invertible smallest ∧ 1 ≤ [0x41#8].length ∧ [0x41#8].length ≤ smallest.bsMax ∧
      [0x41#8].length ≤ [0x10#8].length ∧ [1#8].length = [0x41#8].length ∧
      [2#8].length = [0x41#8].length ∧ [1#8] ≠ [2#8] ∧
      cbcEncrypt add8 [[0x41]] [0x10] [1] = some [[0x50]] ∧
      cbcEncrypt add8 [[0x41]] [0x10] [2] = some [[0x53]] := by
  refine ⟨add8_invertible _, ?_⟩
  decide

theorem test_witness_SingleBlockCbcAgainstEcb :
    add8.Invertible smallest ∧ 1 ≤ [0x41#8].length ∧ [0x41#8].length ≤ smallest.bsMax ∧
      [0x41#8].length ≤ [0x10#8].length ∧ [0#8].length = [0x41#8].length ∧ [0#8] = zeros 1 ∧
      [1#8].length = [0x41#8].length ∧ [1#8] ≠ zeros 1 ∧
      cbcEncrypt add8 [[0x41]] [0x10] [1] = some [[0x50]] ∧
      ecbEncrypt add8 [[0x41]] [0x10] = some [[0x51]] := by
  refine ⟨add8_invertible _, ?_⟩
  decide

theorem test_witness_BlockStepIsTheMultiplexedDatapath : iv8.length = (helloWorld.take 8).length := by
  decide

theorem test_witness_CiphertextIsAsLongAsThePaddedMessage :
    encrypt add8 .cbc helloWorld k8 (some iv8) 8 = .ok cipher14 ∧ ceilDiv 12 8 * 8 = 16 := by decide

theorem test_witness_PlaintextLengthIsTheSuppliedLength :
    decrypt add8 .cbc cipher14 k8 (some iv8) 8 (some 12) = .ok helloWorld := by decide

/-- A hardware with room for V14. -/
def roomy : Capacities where
  bsMax := 8
  keyMax := 8
  ivMax := 9
  inMax := 16
  lenW := 5

theorem test_witness_DecryptUndoesEncrypt :
    add8.Invertible roomy ∧ 8 ≤ roomy.bsMax ∧
      encrypt add8 .cbc helloWorld k8 (some iv8) 8 = .ok cipher14 := by
  refine ⟨add8_invertible _, ?_⟩
  decide

/-- A poll and an engine turn come between; the message is empty, so `NBLK` is 0. -/
theorem test_witness_MachineAgreesWithTheCommandFunctions :
    Inv Config.capacities (readyAt .error) ∧ (readyAt .error).phase.hostOpen = true ∧
      (∀ t ∈ [Turn.host (.read Reg.status.number), Turn.engine], t.quiet = true) ∧
      2 + 1 + (blockCount (.encCbc true false) (readyAt .error) + 4) ≤ 7 :=
  ⟨inv_readyAt _ _ (by decide), rfl, by decide, by decide⟩

/-- Two encrypts in ECB that differ in the flags, the IV, `ORIGLEN` and the phase they start from. -/
theorem test_witness_NothingUnreadInfluencesTheOutcome :
    Inv Config.capacities ready ∧ Inv Config.capacities (readyAt .error) ∧
      ready.phase.hostOpen = true ∧ (readyAt .error).phase.hostOpen = true ∧ ready.turns = [] ∧
      (readyAt .error).turns = [] ∧
      commandView (.encEcb false false) ready = commandView (.encEcb true true) (readyAt .error) ∧
      blockCount (.encEcb false false) ready + 5 ≤ 5 ∧
      blockCount (.encEcb true true) (readyAt .error) + 5 ≤ 5 ∧
      run 5 (presentStart (encode (.encEcb false false)) ready) =
        .next { ready with phase := .done } ∧
      run 5 (presentStart (encode (.encEcb true true)) (readyAt .error)) =
        .next { ready with phase := .done, cmd := Command.ofInstr (.encEcb true true) } :=
  ⟨inv_readyAt _ .idle (by decide), inv_readyAt _ _ (by decide), rfl, rfl, rfl, rfl, rfl, by decide,
    by decide, rfl, rfl⟩

theorem test_witness_CommandAfterResetFailsValidation :
    commandWordWellFormed 0x00#8 = true ∧ commandWordWellFormed 0x0F#8 = true := by decide

/-- A call in CBC on an empty message; the operands fit every hardware. -/
theorem test_witness_EncryptCallComputesEncrypt :
    Inv Config.capacities (readyAt .done) ∧ (readyAt .done).phase.hostOpen = true ∧
      1 ≤ Config.capacities.bsMax ∧ [0x11#8].length ≤ Config.capacities.keyMax ∧
      ([] : Bytes).length ≤ Config.capacities.inMax ∧
      ∀ iv, some [0x22#8] = some iv → iv.length ≤ Config.capacities.ivMax :=
  ⟨inv_readyAt _ _ (by decide), rfl, Config.capacities.bsMax_pos, one_le_keyMax _, Nat.zero_le _,
    fun _ h => Option.some.inj h ▸ (Nat.le_succ 1).trans (two_le_ivMax _)⟩

/-- The same with an original length of 0. -/
theorem test_witness_DecryptCallComputesDecrypt :
    Inv Config.capacities (readyAt .done) ∧ (readyAt .done).phase.hostOpen = true ∧
      1 ≤ Config.capacities.bsMax ∧ [0x11#8].length ≤ Config.capacities.keyMax ∧
      ([] : Bytes).length ≤ Config.capacities.inMax ∧
      (∀ iv, some [0x22#8] = some iv → iv.length ≤ Config.capacities.ivMax) ∧
      ∀ n, some 0 = some n → n < 2 ^ Config.capacities.lenW :=
  ⟨inv_readyAt _ _ (by decide), rfl, Config.capacities.bsMax_pos, one_le_keyMax _, Nat.zero_le _,
    fun _ h => Option.some.inj h ▸ (Nat.le_succ 1).trans (two_le_ivMax _),
    fun _ h => Option.some.inj h ▸ Nat.two_pow_pos _⟩

end Sys2Proof.Machine
end

section
/-! PROOFS. The Padder (R141): the padded length is the least multiple of the block size that is at least the
message length, and an aligned message is its own padding. -/

namespace Sys2Proof.Machine

/-- The padded length is less than one block above `n` (`paddedLength_lt`), so no multiple of `bs` fits
between `n` and it. -/
theorem paddedLength_le_of_dvd {n bs len : Nat} (h : 0 < bs) (hdvd : bs ∣ len) (hle : n ≤ len) :
    paddedLength n bs ≤ len :=
  have hlt : paddedLength n bs < len + bs :=
    (paddedLength_lt h).trans_le (Nat.add_le_add_right hle bs)
  Nat.le_of_lt_add_of_dvd hlt (dvd_paddedLength n bs) hdvd

theorem paddedLength_eq_self_of_dvd {n bs : Nat} (h : 0 < bs) (hdvd : bs ∣ n) :
    paddedLength n bs = n :=
  Nat.le_antisymm (paddedLength_le_of_dvd h hdvd le_rfl) (le_paddedLength h)

@[simp] theorem zeros_zero : zeros 0 = [] := rfl

theorem pad_eq_append_zeros (m : Bytes) (bs : Nat) :
    pad m bs = m ++ zeros (ceilDiv m.length bs * bs - m.length) := rfl

theorem pad_eq_self_of_dvd {m : Bytes} {bs : Nat} (h : 0 < bs) (hdvd : bs ∣ m.length) :
    pad m bs = m := by
  simp [pad, paddedLength_eq_self_of_dvd h hdvd]

/-- Settles O39: with the length of the padded message known (`pad_length`), each clause is a fact about
`paddedLength`. -/
theorem paddingIsZeroFillToTheNextMultiple : Obligations.PaddingIsZeroFillToTheNextMultiple := by
  intro m bs h
  refine ⟨pad_eq_append_zeros m bs, ?multiple, ?least, ?aligned⟩
  case multiple =>
    rw [pad_length h]
    exact dvd_paddedLength m.length bs
  case least =>
    intro len hdvd hle
    rw [pad_length h]
    exact paddedLength_le_of_dvd h hdvd hle
  case aligned =>
    intro hmod
    exact pad_eq_self_of_dvd h (Nat.dvd_of_mod_eq_zero hmod)

end Sys2Proof.Machine
end

section
/-! PROOFS. The Partitioner (R164): `toBlocks` and `fromBlocks` undo each other. One direction reassembles the
first `n` blocks to the first `n * bs` bytes (R163), the other peels one block at a time off the front. -/

namespace Sys2Proof.Machine

@[simp] theorem fromBlocks_nil : fromBlocks [] = [] := rfl

@[simp] theorem fromBlocks_cons (b : Bytes) (blocks : List Bytes) :
    fromBlocks (b :: blocks) = b ++ fromBlocks blocks := rfl

theorem fromBlocks_append (xs ys : List Bytes) :
    fromBlocks (xs ++ ys) = fromBlocks xs ++ fromBlocks ys := List.flatten_append

@[simp] theorem toBlocks_nil (bs : Nat) : toBlocks [] bs = [] := by simp [toBlocks]

/-- A read of the bytes right behind the first `addr` extends them. -/
theorem take_append_memRead (buf : Bytes) (addr n : Nat) :
    buf.take addr ++ memRead buf addr n = buf.take (addr + n) := List.take_add.symm

theorem memRead_append_zero {b : Bytes} {n : Nat} (hb : b.length = n) (rest : Bytes) :
    memRead (b ++ rest) 0 n = b := List.take_left' hb

/-- A read behind the first part `b` is a read of what follows it. -/
theorem memRead_append_add {b : Bytes} {k : Nat} (hb : b.length = k) (rest : Bytes) (addr n : Nat) :
    memRead (b ++ rest) (k + addr) n = memRead rest addr n := by
  rw [memRead, ← List.drop_drop, List.drop_left' hb, memRead]

/-- R163: the first `n` blocks put together are the first `n * bs` bytes. -/
theorem fromBlocks_memRead_range (pm : Bytes) (bs n : Nat) :
    fromBlocks ((List.range n).map fun i => memRead pm (i * bs) bs) = pm.take (n * bs) := by
  induction n with
  | zero => simp
  | succ n ih =>
    rw [List.range_succ, List.map_append, fromBlocks_append, ih, Nat.succ_mul,
      ← take_append_memRead]
    simp

theorem fromBlocks_toBlocks {pm : Bytes} {bs : Nat} (hdvd : bs ∣ pm.length) :
    fromBlocks (toBlocks pm bs) = pm := by
  rw [toBlocks, fromBlocks_memRead_range, Nat.div_mul_cancel hdvd, List.take_length]

/-- The first block of a message is its first `bs` bytes, and the block at index `i + 1` is the block at
index `i` of what follows them. -/
theorem toBlocks_append {b : Bytes} {bs : Nat} (h : 0 < bs) (hb : b.length = bs) (rest : Bytes) :
    toBlocks (b ++ rest) bs = b :: toBlocks rest bs := by
  have hcount : (b ++ rest).length / bs = rest.length / bs + 1 := by
    rw [List.length_append, hb, Nat.add_div_left _ h]
  have hnext (i : Nat) : memRead (b ++ rest) ((i + 1) * bs) bs = memRead rest (i * bs) bs := by
    rw [Nat.succ_mul, Nat.add_comm, memRead_append_add hb]
  rw [toBlocks, hcount, List.range_succ_eq_map]
  simp [toBlocks, memRead_append_zero hb, hnext]

theorem toBlocks_fromBlocks {blocks : List Bytes} {bs : Nat} (h : 0 < bs)
    (hlen : ∀ b ∈ blocks, b.length = bs) : toBlocks (fromBlocks blocks) bs = blocks := by
  induction blocks with
  | nil => simp
  | cons b blocks ih =>
    obtain ⟨hb, hrest⟩ := List.forall_mem_cons.mp hlen
    rw [fromBlocks_cons, toBlocks_append h hb, ih hrest]

/-- Settles O43, by the two inverse laws; only the second needs the block size to be positive. -/
theorem blocksRoundTrip : Obligations.BlocksRoundTrip :=
  ⟨fun _ _ _ hmod => fromBlocks_toBlocks (Nat.dvd_of_mod_eq_zero hmod),
    fun _ _ h hlen => toBlocks_fromBlocks h hlen⟩

end Sys2Proof.Machine
end

section
/-! PROOFS. ECB (R177 to R179): a mapping over blocks that answers is a plain `map`, so it relates the two
lists index by index. -/

namespace Sys2Proof.Machine

@[simp] theorem mapBlocks_nil (f : Bytes → Option Bytes) : mapBlocks f [] = some [] := rfl

theorem mapBlocks_cons (f : Bytes → Option Bytes) (b : Bytes) (rest : List Bytes) :
    mapBlocks f (b :: rest) = (f b).bind fun c => (mapBlocks f rest).map (c :: ·) := by
  rw [mapBlocks]
  cases f b with
  | none => rfl
  | some c => cases mapBlocks f rest <;> rfl

theorem mapBlocks_eq_some_iff_map {f : Bytes → Option Bytes} {blocks cs : List Bytes} :
    mapBlocks f blocks = some cs ↔ blocks.map f = cs.map some := by
  induction blocks generalizing cs with
  | nil => cases cs <;> simp
  | cons b rest ih => cases cs <;> simp [mapBlocks_cons, Option.bind_eq_some_iff, ih]

theorem mapBlocks_eq_some_iff {f : Bytes → Option Bytes} {blocks cs : List Bytes} :
    mapBlocks f blocks = some cs ↔
      cs.length = blocks.length ∧
        ∀ (i : Nat) (b c : Bytes), blocks[i]? = some b → cs[i]? = some c → f b = some c := by
  rw [mapBlocks_eq_some_iff_map, List.ext_getElem_iff]
  simp only [List.length_map, List.getElem_map, List.getElem?_eq_some_iff]
  constructor
  case mp =>
    rintro ⟨hlen, hget⟩
    refine ⟨hlen.symm, ?_⟩
    rintro i _ _ ⟨hi, rfl⟩ ⟨hi', rfl⟩
    exact hget i hi hi'
  case mpr =>
    rintro ⟨hlen, hget⟩
    exact ⟨hlen.symm, fun i hi hi' => hget i _ _ ⟨hi, rfl⟩ ⟨hi', rfl⟩⟩

/-- R179: what stands at an index of the answer depends only on the block at that index. -/
theorem mapBlocks_getElem?_congr {f : Bytes → Option Bytes} {blocks cs : List Bytes} {i j : Nat}
    (h : mapBlocks f blocks = some cs) (hij : blocks[i]? = blocks[j]?) : cs[i]? = cs[j]? := by
  have hget (k : Nat) : (cs[k]?).map some = (blocks[k]?).map f := by
    rw [← List.getElem?_map, ← mapBlocks_eq_some_iff_map.mp h, List.getElem?_map]
  apply Option.map_injective (Option.some_injective Bytes)
  rw [hget i, hget j, hij]

/-- Settles O45: `ecbEncrypt` and `ecbDecrypt` are `mapBlocks` of the transform's two functions. -/
theorem ecbTransformsEachBlockAlone : Obligations.EcbTransformsEachBlockAlone :=
  fun _ _ _ _ =>
    ⟨mapBlocks_eq_some_iff, mapBlocks_eq_some_iff, fun h _ _ => mapBlocks_getElem?_congr h⟩

end Sys2Proof.Machine
end

section
/-! PROOFS. CBC (R195, R196): where a block and its output determine the next chain value, a chain of block
steps relates blocks, outputs and chain values index by index. -/

namespace Sys2Proof.Machine

theorem cbcEncStep_eq_some_iff {bt : BlockTransform} {b key prev o v : Bytes} :
    cbcEncStep bt b key prev = some (o, v) ↔ bt.E (xorBytes b prev) key = some o ∧ v = o := by
  rw [cbcEncStep]
  cases bt.E (xorBytes b prev) key with
  | none => simp
  | some c => simp +contextual [eq_comm]

theorem cbcDecStep_eq_some_iff {bt : BlockTransform} {c key prev o v : Bytes} :
    cbcDecStep bt c key prev = some (o, v) ↔
      (∃ d, bt.D c key = some d ∧ o = xorBytes d prev) ∧ v = c := by
  rw [cbcDecStep]
  cases bt.D c key with
  | none => simp
  | some d => simp [eq_comm]

@[simp] theorem chainBlocks_nil (f : Bytes → Bytes → Option (Bytes × Bytes)) (prev : Bytes) :
    chainBlocks f [] prev = some [] := rfl

theorem chainBlocks_cons (f : Bytes → Bytes → Option (Bytes × Bytes)) (b : Bytes) (rest : List Bytes)
    (prev : Bytes) :
    chainBlocks f (b :: rest) prev =
      (f b prev).bind fun r => (chainBlocks f rest r.2).map (r.1 :: ·) := by
  rw [chainBlocks]
  cases f b prev with
  | none => rfl
  | some r =>
    obtain ⟨o, v⟩ := r
    dsimp only [Option.bind_some]
    cases chainBlocks f rest v <;> rfl

/-- If each step answers exactly the outputs that `R block prev output` allows, and `next` computes the next
chain value from a block and its output, then the outputs of a chain are the lists of the right length that
`R` allows at every index, where the chain value at an index is `next` of the index before it, and `prev` at
index 0. -/
theorem chainBlocks_eq_some_iff {f : Bytes → Bytes → Option (Bytes × Bytes)}
    {R : Bytes → Bytes → Bytes → Prop} {next : Bytes × Bytes → Bytes}
    (hf : ∀ b v o v', f b v = some (o, v') ↔ R b v o ∧ v' = next (b, o))
    {blocks os : List Bytes} {prev : Bytes} :
    chainBlocks f blocks prev = some os ↔
      os.length = blocks.length ∧
        ∀ (i : Nat) (b o v : Bytes), blocks[i]? = some b → os[i]? = some o →
          (prev :: (blocks.zip os).map next)[i]? = some v → R b v o := by
  induction blocks generalizing prev os with
  | nil => cases os <;> simp
  | cons b rest ih =>
    cases os with
    | nil => simp [chainBlocks_cons, Option.bind_eq_some_iff]
    | cons o os =>
      have hcons : chainBlocks f (b :: rest) prev = some (o :: os) ↔
          R b prev o ∧ chainBlocks f rest (next (b, o)) = some os := by
        simp [chainBlocks_cons, Option.bind_eq_some_iff, hf, and_assoc]
      -- `R b prev o` is the clause at index 0; `ih` has the clauses of the rest, which move up by one.
      rw [hcons, ih, and_left_comm]
      refine and_congr (by simp) (Iff.trans ?_ Nat.and_forall_add_one)
      simp

/-- Settles O46: the chain values of encryption are the outputs. -/
theorem cbcEncryptClosedForm : Obligations.CbcEncryptClosedForm := by
  intro bt blocks cbs key iv
  rw [cbcEncrypt, chainBlocks_eq_some_iff (next := Prod.snd) fun _ _ _ _ => cbcEncStep_eq_some_iff]
  refine and_congr_right fun hlen => ?_
  rw [List.map_snd_zip hlen.le]

/-- Settles O47: the chain values of decryption are the input blocks, so no output enters them (R197). -/
theorem cbcDecryptClosedForm : Obligations.CbcDecryptClosedForm := by
  intro bt cblocks pbs key iv
  rw [cbcDecrypt, chainBlocks_eq_some_iff (next := Prod.fst) fun _ _ _ _ => cbcDecStep_eq_some_iff]
  refine and_congr_right fun hlen => ?_
  rw [List.map_fst_zip hlen.ge]

end Sys2Proof.Machine
end

section
/-! PROOFS. The document's `encrypt` (R231, R232, R242): block by block, both modes answer with as many bytes
as they are given, and what they are given is the padded message. -/

namespace Sys2Proof.Machine

theorem length_of_mem_toBlocks {pm b : Bytes} {bs : Nat} (h : b ∈ toBlocks pm bs) : b.length = bs := by
  simp only [toBlocks, List.mem_map, List.mem_range] at h
  obtain ⟨i, hi, rfl⟩ := h
  have hle : (i + 1) * bs ≤ pm.length := (Nat.mul_le_mul_right bs hi).trans (Nat.div_mul_le_self _ _)
  exact memRead_length (Nat.succ_mul i bs ▸ hle)

theorem fromBlocks_length_of_mapBlocks {f : Bytes → Option Bytes}
    (hf : ∀ {b c}, f b = some c → c.length = b.length) {blocks cs : List Bytes}
    (h : mapBlocks f blocks = some cs) : (fromBlocks cs).length = (fromBlocks blocks).length := by
  induction blocks generalizing cs with
  | nil => simp_all
  | cons b rest ih =>
    simp only [mapBlocks_cons, Option.bind_eq_some_iff, Option.map_eq_some_iff] at h
    obtain ⟨c, hc, cs, hcs, rfl⟩ := h
    simp [hf hc, ih hcs]

/-- Where a step on a block and a chain value of `n` bytes each answers with two of `n` bytes, so does every
step of the chain. -/
theorem fromBlocks_length_of_chainBlocks {f : Bytes → Bytes → Option (Bytes × Bytes)} {n : Nat}
    (hf : ∀ {b v o v'}, b.length = n → v.length = n → f b v = some (o, v') →
      o.length = n ∧ v'.length = n)
    {blocks os : List Bytes} {prev : Bytes} (hblocks : ∀ b ∈ blocks, b.length = n)
    (hprev : prev.length = n) (h : chainBlocks f blocks prev = some os) :
    (fromBlocks os).length = (fromBlocks blocks).length := by
  induction blocks generalizing prev os with
  | nil => simp_all
  | cons b rest ih =>
    simp only [chainBlocks_cons, Option.bind_eq_some_iff, Option.map_eq_some_iff] at h
    obtain ⟨⟨o, v⟩, hstep, os, hos, rfl⟩ := h
    obtain ⟨hb, hrest⟩ := List.forall_mem_cons.mp hblocks
    obtain ⟨ho, hv⟩ := hf hb hprev hstep
    simp [ho, hb, ih hrest hv hos]

theorem cbcEncStep_length {bt : BlockTransform} {b key prev o v : Bytes} {n : Nat} (hb : b.length = n)
    (hprev : prev.length = n) (h : cbcEncStep bt b key prev = some (o, v)) :
    o.length = n ∧ v.length = n := by
  obtain ⟨hE, rfl⟩ := cbcEncStep_eq_some_iff.mp h
  have hlen := BlockTransform.E_length hE
  rw [xorBytes_length (hb.trans hprev.symm), hb] at hlen
  exact ⟨hlen, hlen⟩

theorem ecbEncrypt_length {bt : BlockTransform} {blocks cbs : List Bytes} {key : Bytes}
    (h : ecbEncrypt bt blocks key = some cbs) : (fromBlocks cbs).length = (fromBlocks blocks).length :=
  fromBlocks_length_of_mapBlocks BlockTransform.E_length h

theorem cbcEncrypt_length {bt : BlockTransform} {blocks cbs : List Bytes} {key iv : Bytes}
    (hblocks : ∀ b ∈ blocks, b.length = iv.length) (h : cbcEncrypt bt blocks key iv = some cbs) :
    (fromBlocks cbs).length = (fromBlocks blocks).length :=
  fromBlocks_length_of_chainBlocks cbcEncStep_length hblocks rfl h

/-- R121 to R124: what validation establishes, of the IV in CBC only. -/
theorem validate_eq_ok_iff {mode : Mode} {bs keylen : Nat} {ivOpt : Option Bytes} :
    validate mode bs keylen ivOpt = .ok () ↔
      0 < bs ∧ bs ≤ keylen ∧ (mode = .cbc → ∃ iv, ivOpt = some iv ∧ iv.length = bs) := by
  unfold validate
  split
  next hbs => simp [hbs]
  next hbs =>
    split
    next hkey => simp [hkey]
    next hkey =>
      have hpos : 0 < bs := Nat.pos_of_ne_zero hbs
      have hle : bs ≤ keylen := not_lt.mp hkey
      cases mode with
      | ecb => simp [hpos, hle]
      | cbc => cases ivOpt <;> simp [hpos, hle]

theorem encryptTail_cases (r : Option (List Bytes)) :
    (∃ k, encryptTail r = .err k) ∨ ∃ cbs, r = some cbs ∧ encryptTail r = .ok (fromBlocks cbs) := by
  cases r with
  | none => exact .inl ⟨_, rfl⟩
  | some cbs => exact .inr ⟨cbs, rfl, rfl⟩

theorem encEcbResult_cases (bt : BlockTransform) (bs : Nat) (key p : Bytes) :
    (∃ k, encEcbResult bt bs key p = .err k) ∨
      ∃ cbs, 0 < bs ∧ ecbEncrypt bt (toBlocks (pad p bs) bs) key = some cbs ∧
        encEcbResult bt bs key p = .ok (fromBlocks cbs) := by
  unfold encEcbResult
  split
  next k _ => exact .inl ⟨k, rfl⟩
  next hv =>
    obtain ⟨hbs, -, -⟩ := validate_eq_ok_iff.mp hv
    exact (encryptTail_cases _).imp_right fun ⟨cbs, hcbs, htail⟩ => ⟨cbs, hbs, hcbs, htail⟩

theorem encCbcResult_cases (bt : BlockTransform) (bs : Nat) (key : Bytes) (ivOpt : Option Bytes)
    (p : Bytes) :
    (∃ k, encCbcResult bt bs key ivOpt p = .err k) ∨
      ∃ iv cbs, 0 < bs ∧ ivOpt = some iv ∧ iv.length = bs ∧
        cbcEncrypt bt (toBlocks (pad p bs) bs) key iv = some cbs ∧
        encCbcResult bt bs key ivOpt p = .ok (fromBlocks cbs) := by
  unfold encCbcResult
  split
  next k _ => exact .inl ⟨k, rfl⟩
  next hv =>
    obtain ⟨hbs, -, hiv⟩ := validate_eq_ok_iff.mp hv
    obtain ⟨iv, rfl, hlen⟩ := hiv rfl
    exact (encryptTail_cases _).imp_right fun ⟨cbs, hcbs, htail⟩ =>
      ⟨iv, cbs, hbs, rfl, hlen, hcbs, htail⟩

theorem fromBlocks_toBlocks_pad_length {m : Bytes} {bs : Nat} (h : 0 < bs) :
    (fromBlocks (toBlocks (pad m bs) bs)).length = paddedLength m.length bs := by
  rw [fromBlocks_toBlocks (Nat.dvd_of_mod_eq_zero (pad_length_mod h)), pad_length h]

/-- Everything an encrypt can answer, in either mode: an error, or as many bytes as the padded message has. -/
theorem encrypt_cases (bt : BlockTransform) (mode : Mode) (p key : Bytes) (ivOpt : Option Bytes)
    (bs : Nat) :
    (∃ k, encrypt bt mode p key ivOpt bs = .err k) ∨
      ∃ c, encrypt bt mode p key ivOpt bs = .ok c ∧ c.length = paddedLength p.length bs := by
  cases mode with
  | ecb =>
    refine (encEcbResult_cases bt bs key p).imp_right ?_
    rintro ⟨cbs, hbs, hcbs, hok⟩
    exact ⟨_, hok, (ecbEncrypt_length hcbs).trans (fromBlocks_toBlocks_pad_length hbs)⟩
  | cbc =>
    refine (encCbcResult_cases bt bs key ivOpt p).imp_right ?_
    rintro ⟨iv, cbs, hbs, -, hiv, hcbs, hok⟩
    have hblocks : ∀ b ∈ toBlocks (pad p bs) bs, b.length = iv.length :=
      fun b hb => (length_of_mem_toBlocks hb).trans hiv.symm
    exact ⟨_, hok, (cbcEncrypt_length hblocks hcbs).trans (fromBlocks_toBlocks_pad_length hbs)⟩

/-- Settles O52: `encrypt` selects the command by definition, and `encrypt_cases` leaves no fault and one
length. -/
theorem ciphertextIsAsLongAsThePaddedMessage : Obligations.CiphertextIsAsLongAsThePaddedMessage := by
  intro bt mode p key ivOpt bs
  refine ⟨fun h => h ▸ rfl, fun h => h ▸ rfl, ?length, ?noFault⟩
  case length =>
    intro c hc
    obtain ⟨k, hk⟩ | ⟨c', hc', hlen⟩ := encrypt_cases bt mode p key ivOpt bs
    · cases hk.symm.trans hc
    · cases hc'.symm.trans hc
      exact hlen
  case noFault =>
    intro f hf
    obtain ⟨k, hk⟩ | ⟨c, hc, -⟩ := encrypt_cases bt mode p key ivOpt bs
    · cases hk.symm.trans hf
    · cases hc.symm.trans hf

end Sys2Proof.Machine
end

section
/-! PROOFS. The command word (R90 to R92, R98) and the register numbers (R95): `encode` and `decodeWord` undo
each other, which both directions of the word format and the assembly of written commands rest on. -/

namespace Sys2Proof

theorem decodeWord_encode (i : Instr) : decodeWord (encode i) = .ok i := by
  cases i with
  | encEcb ivp olp => cases ivp <;> cases olp <;> rfl
  | decEcb ivp olp => cases ivp <;> cases olp <;> rfl
  | encCbc ivp olp => cases ivp <;> cases olp <;> rfl
  | decCbc ivp olp => cases ivp <;> cases olp <;> rfl

theorem decode_cons_of_decodeWord {w : BitVec 8} {i : Instr} (h : decodeWord w = .ok i) (rest : Bytes) :
    decode (w :: rest) = .ok (i, rest) := by
  simp only [decode, h]

theorem decode_encode (i : Instr) (rest : Bytes) : decode (encode i :: rest) = .ok (i, rest) :=
  decode_cons_of_decodeWord (decodeWord_encode i) rest

/-- Settles O1: every command is one byte, so what follows its word is handed back whole. -/
theorem encodedCommandDecodesToItself : Obligations.EncodedCommandDecodesToItself :=
  fun i rest _ => decode_encode i rest

theorem fieldsWord_of_reserved_zero {w : BitVec 8} (h : w.extractLsb' 4 4 = 0#4) :
    fieldsWord (w.getLsbD 0) (w.getLsbD 1) (w.getLsbD 2) (w.getLsbD 3) = w := by
  revert w
  decide

theorem commandWordWellFormed_iff {w : BitVec 8} :
    commandWordWellFormed w = true ↔ w.extractLsb' 4 4 = 0#4 := by
  simp [commandWordWellFormed]

theorem encode_decodeWord {w : BitVec 8} {i : Instr} (h : decodeWord w = .ok i) : encode i = w := by
  unfold decodeWord at h
  split at h
  next hw =>
    obtain rfl := Except.ok.inj h
    have hword := fieldsWord_of_reserved_zero hw
    split <;> simp_all [encode]
  · cases h

theorem exists_decodeWord {w : BitVec 8} (h : commandWordWellFormed w = true) :
    ∃ i, decodeWord w = .ok i := by
  rw [decodeWord, if_pos (commandWordWellFormed_iff.mp h)]
  exact ⟨_, rfl⟩

theorem decodeWord_reserved {w : BitVec 8} (h : commandWordWellFormed w = false) :
    decodeWord w = .error .reservedBits := by
  rw [decodeWord, if_neg]
  intro hw
  exact absurd (commandWordWellFormed_iff.mpr hw) (by simp [h])

/-- Settles O2. -/
theorem wordIsCommandExactlyWhenReservedBitsAreZero :
    Obligations.WordIsCommandExactlyWhenReservedBitsAreZero := by
  intro w
  refine ⟨fun h => ?_, decodeWord_reserved⟩
  obtain ⟨i, hi⟩ := exists_decodeWord h
  exact ⟨i, hi, encode_decodeWord hi⟩

theorem tableWordByte_toNat (w : BitVec 8) : tableWordByte 8 w.toNat = w := by
  rw [tableWordByte, Nat.mod_eq_of_lt w.isLt, BitVec.ofNat_toNat, BitVec.setWidth_eq]

theorem decodeTableWord_encode (i : Instr) : decodeTableWord 8 (encode i).toNat = some i := by
  simp only [decodeTableWord, tableWordByte_toNat, decode_encode]

/-- Settles O3, by running the decoder on the nine words. -/
theorem opcodeMapWordsDecode : Obligations.OpcodeMapWordsDecode := by
  unfold Obligations.OpcodeMapWordsDecode
  decide

theorem fieldsWord_toNat (op mode ivp olp : Bool) :
    (fieldsWord op mode ivp olp).toNat =
      op.toNat + 2 * mode.toNat + 4 * ivp.toNat + 8 * olp.toNat := by
  revert op mode ivp olp
  decide

/-- R98: the sum of a written command's weights is the number of its word. -/
theorem CommandText.word_eq_encode (t : CommandText) : t.word = (encode t.instr).toNat := by
  obtain ⟨op, mode, flags⟩ := t
  cases op <;> cases mode <;>
    simp [CommandText.word, CommandText.instr, instrOfFields, encode, fieldsWord_toNat,
      Bool.toNat, Bool.cond_eq_ite]

/-- Settles O4. -/
theorem writtenCommandAssemblesToItsWord : Obligations.WrittenCommandAssemblesToItsWord := by
  intro t _
  rw [t.word_eq_encode]
  exact ⟨decodeTableWord_encode _, rfl⟩

theorem Reg.ofNumber_number (r : Reg) : Reg.ofNumber r.number = some r := by
  cases r <;> rfl

theorem Reg.number_of_ofNumber {n : BitVec 4} {r : Reg} (h : Reg.ofNumber n = some r) : r.number = n := by
  unfold Reg.ofNumber at h
  apply BitVec.eq_of_toNat_eq
  split at h <;> cases h <;> simp_all [Reg.number]

/-- Settles O5. -/
theorem registerNumbersNameTheRegisters : Obligations.RegisterNumbersNameTheRegisters :=
  ⟨by decide, Reg.ofNumber_number, fun _ _ => Reg.number_of_ofNumber, rfl, rfl⟩

end Sys2Proof
end

section
/-! PROOFS. A step by the turn it takes, an engine step by its phase, a host move by its kind: equations for
running the machine forwards, and one inversion lemma each for reasoning backwards. -/

namespace Sys2Proof.Machine

/-! A step, by its turn (R14, R68) -/

theorem step_nil {s : State} (h : s.turns = []) : step s = engineStep Config.transform s := by
  rw [step, takeTurn, h]
  exact engineTurn_exec s

theorem step_engine {s : State} {ts : List Turn} (h : s.turns = .engine :: ts) :
    step s = engineStep Config.transform { s with turns := ts } := by
  rw [step, takeTurn, h]
  exact engineTurn_exec _

theorem step_host {s : State} {m : HostMove} {ts : List Turn} (h : s.turns = .host m :: ts) :
    step s = hostMove Config.capacities exec m { s with turns := ts } := by
  rw [step, takeTurn, h]

theorem step_wait {s : State} {ts : List Turn} (h : s.turns = .wait :: ts) :
    step s = .next (waitTurn ts s) := by
  rw [step, takeTurn, h]

/-- Everything a step can do: an engine step, which listed turns do not enter, a poll, or a host move. -/
theorem step_next {s t : State} (h : step s = .next t) :
    (∃ ts, engineStep Config.transform { s with turns := ts } = .next t) ∨
      (∃ ts, s.turns = .wait :: ts ∧ t = waitTurn ts s) ∨
      ∃ m ts, s.turns = .host m :: ts ∧
        hostMove Config.capacities exec m { s with turns := ts } = .next t := by
  obtain ⟨-, he⟩ | ⟨ts, -, he⟩ | hw | hm := takeTurn_next h
  · exact .inl ⟨s.turns, (engineTurn_exec s).symm.trans he⟩
  · exact .inl ⟨ts, (engineTurn_exec _).symm.trans he⟩
  · exact .inr (.inl hw)
  · exact .inr (.inr hm)

/-! An engine step, by its phase (R235 to R240) -/

theorem engineStep_validate (bt : BlockTransform) {s : State} (h : s.phase = .validate) :
    engineStep bt s = validateStep s := by simp only [engineStep, h]

theorem engineStep_prep (bt : BlockTransform) {s : State} (h : s.phase = .prep) :
    engineStep bt s = prepStep s := by simp only [engineStep, h]

theorem engineStep_process (bt : BlockTransform) {s : State} (h : s.phase = .process) :
    engineStep bt s = processStep bt s := by simp only [engineStep, h]

theorem engineStep_finish (bt : BlockTransform) {s : State} (h : s.phase = .finish) :
    engineStep bt s = finishStep s := by simp only [engineStep, h]

theorem busy_cases {p : Phase} (h : p.busy = true) :
    p = .validate ∨ p = .prep ∨ p = .process ∨ p = .finish := by
  cases p <;> simp_all [Phase.busy]

theorem hostOpen_cases {p : Phase} (h : p.hostOpen = true) : p = .idle ∨ p = .done ∨ p = .error := by
  cases p <;> simp_all [Phase.hostOpen]

theorem quiescent_cases {p : Phase} (h : p.busy = false) :
    p = .idle ∨ p = .done ∨ p = .error ∨ p = .fault := by
  cases p <;> simp_all [Phase.busy]

theorem hostOpen_eq_false_of_busy {p : Phase} (h : p.busy = true) : p.hostOpen = false := by
  obtain rfl | rfl | rfl | rfl := busy_cases h <;> rfl

theorem engineStep_quiescent (bt : BlockTransform) {s : State} (h : s.phase.busy = false) :
    engineStep bt s = .next s := by
  obtain hp | hp | hp | hp := quiescent_cases h <;> simp only [engineStep, hp]

theorem engineStep_next {bt : BlockTransform} {s t : State} (h : engineStep bt s = .next t) :
    (s.phase.busy = false ∧ t = s) ∨
      (s.phase = .validate ∧ validateStep s = .next t) ∨
      (s.phase = .prep ∧ prepStep s = .next t) ∨
      (s.phase = .process ∧ processStep bt s = .next t) ∨
      (s.phase = .finish ∧ finishStep s = .next t) := by
  cases hb : s.phase.busy with
  | false =>
    rw [engineStep_quiescent bt hb] at h
    exact .inl ⟨rfl, (Host.Outcome.next.inj h).symm⟩
  | true =>
    obtain hp | hp | hp | hp := busy_cases hb
    · exact .inr (.inl ⟨hp, engineStep_validate bt hp ▸ h⟩)
    · exact .inr (.inr (.inl ⟨hp, engineStep_prep bt hp ▸ h⟩))
    · exact .inr (.inr (.inr (.inl ⟨hp, engineStep_process bt hp ▸ h⟩)))
    · exact .inr (.inr (.inr (.inr ⟨hp, engineStep_finish bt hp ▸ h⟩)))

/-- The next step of the running command is the engine's. -/
theorem exec_running {i : Instr} {s : State} (hb : s.phase.busy = true) (hc : s.cmd = Command.ofInstr i) :
    exec i s = engineStep Config.transform s := by
  rw [exec_eq_execWith, execWith, ← hc, commandStep_busy hb]

/-! A host move, by its kind (R270) -/

/-- Everything a host move can do: the reset, a read, and in an open phase the start of a command or the
write of one operand within its range. -/
theorem hostMove_next {c : Capacities} {m : HostMove} {s t : State}
    (h : hostMove c exec m s = .next t) :
    (m = .reset ∧ t = resetMachine s) ∨
      (∃ reg v, m = .read reg ∧ t = deliver v s) ∨
      (s.phase.hostOpen = true ∧
        ((∃ i, t = startCommand (Command.ofInstr i) s) ∨
          (∃ b, b.length ≤ c.keyMax ∧ t = { s with key := b }) ∨
          (∃ b, b.length ≤ c.ivMax ∧ t = { s with iv := b }) ∨
          (∃ b, b.length ≤ c.inMax ∧ t = { s with inp := b }) ∨
          (∃ n, n ≤ c.bsMax ∧ t = { s with blksz := n }) ∨
          (∃ n, n < 2 ^ c.lenW ∧ t = { s with origlen := n }))) := by
  cases m with
  | reset => exact .inl ⟨rfl, (Host.Outcome.next.inj h).symm⟩
  | read reg =>
    obtain ⟨r, v, -, -, -, rfl⟩ := hostRead_next h
    exact .inr (.inl ⟨reg, v, rfl, rfl⟩)
  | start w =>
    obtain ⟨ho, i, rest, -, hi⟩ := hostStart_next h
    rw [exec_open i ho] at hi
    exact .inr (.inr ⟨ho, .inl ⟨i, (Host.Outcome.next.inj hi).symm⟩⟩)
  | load port b =>
    obtain ⟨ho, ⟨-, hl, rfl⟩ | ⟨-, hl, rfl⟩ | ⟨-, hl, rfl⟩⟩ := hostLoad_next h
    · exact .inr (.inr ⟨ho, .inr (.inl ⟨b, hl, rfl⟩)⟩)
    · exact .inr (.inr ⟨ho, .inr (.inr (.inl ⟨b, hl, rfl⟩))⟩)
    · exact .inr (.inr ⟨ho, .inr (.inr (.inr (.inl ⟨b, hl, rfl⟩)))⟩)
  | set reg n =>
    obtain ⟨ho, ⟨-, hn, rfl⟩ | ⟨-, hn, rfl⟩⟩ := hostSet_next h
    · exact .inr (.inr ⟨ho, .inr (.inr (.inr (.inr (.inl ⟨n, hn, rfl⟩))))⟩)
    · exact .inr (.inr ⟨ho, .inr (.inr (.inr (.inr (.inr ⟨n, hn, rfl⟩))))⟩)

end Sys2Proof.Machine
end

section
/-! PROOFS. The invariant (R37): it holds at reset and every step keeps it, one lemma for each thing a step can
do. -/

namespace Sys2Proof.Machine

/-- The ranges and capacities of the operands alone (R21 to R25). -/
structure OperandsFit (c : Capacities) (s : State) : Prop where
  blksz_le : s.blksz ≤ c.bsMax
  key_le : s.key.length ≤ c.keyMax
  iv_le : s.iv.length ≤ c.ivMax
  inp_le : s.inp.length ≤ c.inMax
  origlen_lt : s.origlen < 2 ^ c.lenW

variable {c : Capacities} {s t : State}

theorem Inv.operandsFit (h : Inv c s) : OperandsFit c s :=
  ⟨h.blksz_le, h.key_le, h.iv_le, h.inp_le, h.origlen_lt⟩

theorem OperandsFit.of_sameOperands (h : OperandsFit c s) (hst : SameOperands s t) :
    OperandsFit c t := by
  obtain ⟨hb, hk, hv, hi, ho, -⟩ := hst
  exact ⟨hb ▸ h.blksz_le, hk ▸ h.key_le, hv ▸ h.iv_le, hi ▸ h.inp_le, ho ▸ h.origlen_lt⟩

/-- What the invariant asks of a state outside PROCESS. -/
theorem inv_of_ne_process (hp : s.phase ≠ .process) (hfit : OperandsFit c s)
    (herr : s.err ≠ none ↔ s.phase = .error) (hcause : s.fcause ≠ none ↔ s.phase = .fault)
    (hprev : s.prev = none) (hwork : s.work = []) (hle : s.out.length ≤ c.outMax)
    (hout : s.phase ≠ .finish → s.phase ≠ .done → s.out = [])
    (hval : s.phase = .prep ∨ s.phase = .finish →
      validate s.cmd.mode s.blksz s.key.length s.ivOpt = .ok ())
    (hcut : s.phase = .finish → s.cmd.op = .decrypt → s.cmd.olp = true → s.origlen ≤ s.out.length) :
    Inv c s where
  err_iff := herr
  fcause_iff := hcause
  blksz_pos := fun h => absurd h hp
  key_ge := fun h => absurd h hp
  work_length := fun h => absurd h hp
  bidx_le := fun h => absurd h hp
  out_length := fun h => absurd h hp
  prev_cbc := fun h => absurd h hp
  prev_ecb := fun h => absurd h hp
  prev_outside := fun _ => hprev
  work_outside := fun _ => hwork
  out_empty := by
    intro h
    apply hout <;> rintro hq <;> simp [hq] at h
  blksz_le := hfit.blksz_le
  key_le := hfit.key_le
  iv_le := hfit.iv_le
  inp_le := hfit.inp_le
  origlen_lt := hfit.origlen_lt
  work_le := by simp [hwork]
  out_le := hle
  validated := by
    rintro (h | h | h)
    · exact hval (.inl h)
    · exact absurd h hp
    · exact hval (.inr h)
  unpad_process := fun h => absurd h hp
  unpad_finish := hcut

/-- What the invariant asks of a state in PROCESS. -/
theorem inv_of_process (hp : s.phase = .process) (hfit : OperandsFit c s) (herr : s.err = none)
    (hcause : s.fcause = none) (hval : validate s.cmd.mode s.blksz s.key.length s.ivOpt = .ok ())
    (hwork : s.work.length = s.nblk * s.blksz) (hle : s.work.length ≤ c.outMax)
    (hbidx : s.bidx ≤ s.nblk) (hout : s.out.length = s.bidx * s.blksz)
    (hcbc : s.cmd.mode = .cbc → ∃ v, s.prev = some v ∧ v.length = s.blksz)
    (hecb : s.cmd.mode = .ecb → s.prev = none)
    (hcut : s.cmd.op = .decrypt → s.cmd.olp = true → s.origlen ≤ s.work.length) : Inv c s where
  err_iff := by simp [herr, hp]
  fcause_iff := by simp [hcause, hp]
  blksz_pos := fun _ => (validate_eq_ok_iff.mp hval).1
  key_ge := fun _ => (validate_eq_ok_iff.mp hval).2.1
  work_length := fun _ => hwork
  bidx_le := fun _ => hbidx
  out_length := fun _ => hout
  prev_cbc := fun _ => hcbc
  prev_ecb := fun _ => hecb
  prev_outside := fun h => absurd hp h
  work_outside := fun h => absurd hp h
  out_empty := by simp [hp]
  blksz_le := hfit.blksz_le
  key_le := hfit.key_le
  iv_le := hfit.iv_le
  inp_le := hfit.inp_le
  origlen_lt := hfit.origlen_lt
  work_le := hle
  out_le := by
    rw [hout]
    exact (Nat.mul_le_mul_right _ hbidx).trans (hwork ▸ hle)
  validated := fun _ => hval
  unpad_process := fun _ => hcut
  unpad_finish := by simp [hp]

theorem Inv.err_eq_none (h : Inv c s) (hp : s.phase ≠ .error) : s.err = none :=
  not_not.mp fun he => hp (h.err_iff.mp he)

theorem Inv.fcause_eq_none (h : Inv c s) (hp : s.phase ≠ .fault) : s.fcause = none :=
  not_not.mp fun he => hp (h.fcause_iff.mp he)

/-- The host's own fields do not enter the invariant. -/
theorem Inv.of_host_fields (h : Inv c s) (ts : List Turn) (d : Option ReadData) :
    Inv c { s with turns := ts, readData := d } := by
  obtain ⟨hlaws, h1, h2, h3, h4, h5, h6, h7, h8, h9, h10⟩ := h
  obtain ⟨l1, l2, l3, l4, l5, l6, l7, l8, l9, l10, l11, l12⟩ := hlaws
  exact ⟨⟨l1, l2, l3, l4, l5, l6, l7, l8, l9, l10, l11, l12⟩, h1, h2, h3, h4, h5, h6, h7, h8, h9, h10⟩

theorem inv_reset (c : Capacities) : Inv c State.reset := by
  apply inv_of_ne_process
  case hfit => exact ⟨Nat.zero_le _, Nat.zero_le _, Nat.zero_le _, Nat.zero_le _, Nat.two_pow_pos _⟩
  all_goals simp [State.reset]

/-- Settles O32. -/
theorem resetStateMeetsTheInvariant : Obligations.ResetStateMeetsTheInvariant := inv_reset _

theorem resetMachine_inv (c : Capacities) (s : State) : Inv c (resetMachine s) :=
  (inv_reset c).of_host_fields s.turns s.readData

/-- In an open phase the operands may change within their ranges. -/
theorem Inv.of_open (h : Inv c s) (ho : s.phase.hostOpen = true) (hphase : t.phase = s.phase)
    (herr : t.err = s.err) (hcause : t.fcause = s.fcause) (hprev : t.prev = s.prev)
    (hwork : t.work = s.work) (hout : t.out = s.out) (hfit : OperandsFit c t) : Inv c t := by
  have hp : s.phase ≠ .process ∧ s.phase ≠ .prep ∧ s.phase ≠ .finish := by
    obtain hq | hq | hq := hostOpen_cases ho <;> simp [hq]
  obtain ⟨hproc, hprep, hfin⟩ := hp
  apply inv_of_ne_process
  case hp => rwa [hphase]
  case hfit => exact hfit
  case herr => rw [herr, hphase, h.err_iff]
  case hcause => rw [hcause, hphase, h.fcause_iff]
  case hprev => rw [hprev, h.prev_outside hproc]
  case hwork => rw [hwork, h.work_outside hproc]
  case hle => rw [hout]; exact h.out_le
  case hout =>
    rw [hphase, hout]
    intro _ hdone
    obtain hq | hq | hq := hostOpen_cases ho
    · exact h.out_empty (.inl hq)
    · exact absurd hq hdone
    · exact h.out_empty (by simp [hq])
  case hval =>
    rw [hphase]
    rintro (hq | hq)
    · exact absurd hq hprep
    · exact absurd hq hfin
  case hcut =>
    rw [hphase]
    exact fun hq => absurd hq hfin

theorem startCommand_inv (h : Inv c s) (ho : s.phase.hostOpen = true) (cmd : Command) :
    Inv c (startCommand cmd s) := by
  have hp : s.phase ≠ .process ∧ s.phase ≠ .fault := by
    obtain hq | hq | hq := hostOpen_cases ho <;> simp [hq]
  apply inv_of_ne_process
  case hfit => exact ⟨h.blksz_le, h.key_le, h.iv_le, h.inp_le, h.origlen_lt⟩
  all_goals simp [h.prev_outside hp.1, h.work_outside hp.1, h.fcause_eq_none hp.2]

theorem errorEntry_inv (h : Inv c s) (hp : s.phase ≠ .fault) (k : ModeError) :
    Inv c (errorEntry k s) := by
  apply inv_of_ne_process
  case hfit => exact ⟨h.blksz_le, h.key_le, h.iv_le, h.inp_le, h.origlen_lt⟩
  all_goals simp [h.fcause_eq_none hp]

theorem faultEntry_inv (h : Inv c s) (hp : s.phase = .prep) (f : FaultCause) :
    Inv c (faultEntry f s) := by
  apply inv_of_ne_process
  case hfit => exact ⟨h.blksz_le, h.key_le, h.iv_le, h.inp_le, h.origlen_lt⟩
  all_goals simp [h.err_eq_none, h.prev_outside, h.work_outside, hp]

theorem validateStep_inv (h : Inv c s) (hp : s.phase = .validate) (ht : validateStep s = .next t) :
    Inv c t := by
  obtain ⟨hv, rfl⟩ | ⟨k, -, rfl⟩ := validateStep_next ht
  · apply inv_of_ne_process
    case hfit => exact ⟨h.blksz_le, h.key_le, h.iv_le, h.inp_le, h.origlen_lt⟩
    case hval => exact fun _ => hv
    all_goals simp [h.err_eq_none, h.fcause_eq_none, h.prev_outside, h.work_outside, h.out_empty, hp]
  · exact errorEntry_inv h (by simp [hp]) k

/-- What validation established for the running command (R235). -/
theorem Inv.validate_facts (h : Inv c s)
    (hp : s.phase = .prep ∨ s.phase = .process ∨ s.phase = .finish) :
    0 < s.blksz ∧ s.blksz ≤ s.key.length ∧
      (s.cmd.mode = .cbc → s.ivOpt = some s.iv ∧ s.iv.length = s.blksz) := by
  obtain ⟨hpos, hkey, hiv⟩ := validate_eq_ok_iff.mp (h.validated hp)
  refine ⟨hpos, hkey, fun hm => ?_⟩
  obtain ⟨iv, hopt, hlen⟩ := hiv hm
  have hiveq : iv = s.iv := by
    unfold State.ivOpt at hopt
    split at hopt
    · exact (Option.some.inj hopt).symm
    · cases hopt
  exact ⟨hiveq ▸ hopt, hiveq ▸ hlen⟩

theorem inMax_le_outMax (c : Capacities) : c.inMax ≤ c.outMax := by
  have := c.bsMax_pos
  unfold Capacities.outMax
  omega

theorem beginBlocks_inv (h : Inv c s) (hp : s.phase = .prep) {w : Bytes} (hw : w.length % s.blksz = 0)
    (hle : w.length ≤ c.outMax)
    (hcut : s.cmd.op = .decrypt → s.cmd.olp = true → s.origlen ≤ w.length) :
    Inv c (beginBlocks w s) := by
  obtain ⟨-, -, hiv⟩ := h.validate_facts (.inl hp)
  apply inv_of_process
  case hfit => exact ⟨h.blksz_le, h.key_le, h.iv_le, h.inp_le, h.origlen_lt⟩
  case hval => exact h.validated (.inl hp)
  case hwork => exact (Nat.div_mul_cancel (Nat.dvd_of_mod_eq_zero hw)).symm
  case hcbc => exact fun hm => ⟨s.iv, beginBlocks_prev_cbc w s hm, (hiv hm).2⟩
  case hecb => exact beginBlocks_prev_ecb w s
  case hcut => exact hcut
  all_goals simp [h.err_eq_none, h.fcause_eq_none, hp, hle]

theorem prepStep_inv (h : Inv c s) (hp : s.phase = .prep) (ht : prepStep s = .next t) : Inv c t := by
  obtain ⟨hpos, -, -⟩ := h.validate_facts (.inl hp)
  obtain ⟨-, ⟨hop, rfl⟩ | ⟨-, -, rfl⟩ | ⟨-, -, -, -, rfl⟩ | ⟨-, hmod, hcut, rfl⟩⟩ := prepStep_next ht
  · exact beginBlocks_inv h hp (pad_length_mod hpos) (pad_length_le_outMax hpos h.blksz_le h.inp_le)
      (by simp [hop])
  · exact faultEntry_inv h hp _
  · exact faultEntry_inv h hp _
  · exact beginBlocks_inv h hp hmod (h.inp_le.trans (inMax_le_outMax c)) fun _ => hcut

theorem blockDone_inv (h : Inv c s) (hp : s.phase = .process) (hlt : s.bidx < s.nblk) {o : Bytes}
    {prev' : Option Bytes} (ho : o.length = s.blksz)
    (hcbc : s.cmd.mode = .cbc → ∃ v, prev' = some v ∧ v.length = s.blksz)
    (hecb : s.cmd.mode = .ecb → prev' = none) : Inv c (blockDone o prev' s) := by
  apply inv_of_process
  case hfit => exact ⟨h.blksz_le, h.key_le, h.iv_le, h.inp_le, h.origlen_lt⟩
  case hval => exact h.validated (.inr (.inl hp))
  case hwork => exact h.work_length hp
  case hle => exact h.work_le
  case hbidx => exact hlt
  case hout => simp [ho, h.out_length hp, Nat.succ_mul]
  case hcbc => exact hcbc
  case hecb => exact hecb
  case hcut => exact h.unpad_process hp
  all_goals simp [h.err_eq_none, h.fcause_eq_none, hp]

theorem loopExit_inv (h : Inv c s) (hp : s.phase = .process) (he : s.bidx = s.nblk) :
    Inv c (loopExit s) := by
  have hlen : s.out.length = s.work.length := by rw [h.out_length hp, h.work_length hp, he]
  apply inv_of_ne_process
  case hfit => exact ⟨h.blksz_le, h.key_le, h.iv_le, h.inp_le, h.origlen_lt⟩
  case hval => exact fun _ => h.validated (.inr (.inl hp))
  case hcut => exact fun _ hop holp => hlen ▸ h.unpad_process hp hop holp
  case hle => exact h.out_le
  all_goals simp [h.err_eq_none, h.fcause_eq_none, hp]

theorem processStep_inv {bt : BlockTransform} (h : Inv c s) (hp : s.phase = .process)
    (ht : processStep bt s = .next t) : Inv c t := by
  obtain ⟨b, hlt, hb, ⟨-, rfl⟩ | ⟨o, prev', hstep, rfl⟩⟩ | ⟨he, rfl⟩ := processStep_next ht
  · exact errorEntry_inv h (by simp [hp]) _
  · obtain ⟨ho, hprev⟩ := blockStep_ok hstep
    have hblen := slice_length hb
    apply blockDone_inv h hp hlt (ho.trans hblen)
    · intro hm
      obtain ⟨hecb, -⟩ | ⟨-, v', -, -, -, -, hv, hvlen⟩ := hprev
      · simp [hecb] at hm
      · exact ⟨v', hv, hvlen.trans hblen⟩
    · intro hm
      obtain ⟨-, -, hnone⟩ | ⟨-, -, hcbc, -⟩ := hprev
      · exact hnone
      · simp [hcbc] at hm
  · exact loopExit_inv h hp he

theorem finishStep_inv (h : Inv c s) (hp : s.phase = .finish) (ht : finishStep s = .next t) :
    Inv c t := by
  have hfit := h.operandsFit
  have hle := h.out_le
  obtain ⟨-, -, -, rfl⟩ | ⟨-, rfl⟩ := finishStep_next ht <;>
  · apply inv_of_ne_process
    case hfit => exact hfit.of_sameOperands ⟨rfl, rfl, rfl, rfl, rfl, rfl⟩
    all_goals simp [h.err_eq_none, h.fcause_eq_none, h.prev_outside, h.work_outside, hle, hp]

theorem engineStep_inv {bt : BlockTransform} (h : Inv c s) (ht : engineStep bt s = .next t) :
    Inv c t := by
  obtain ⟨-, rfl⟩ | ⟨hp, ht⟩ | ⟨hp, ht⟩ | ⟨hp, ht⟩ | ⟨hp, ht⟩ := engineStep_next ht
  · exact h
  · exact validateStep_inv h hp ht
  · exact prepStep_inv h hp ht
  · exact processStep_inv h hp ht
  · exact finishStep_inv h hp ht

theorem hostMove_inv {m : HostMove} (h : Inv c s) (ht : hostMove c exec m s = .next t) : Inv c t := by
  have hfit := h.operandsFit
  obtain ⟨-, rfl⟩ | ⟨-, v, -, rfl⟩ | ⟨ho, hopen⟩ := hostMove_next ht
  · exact resetMachine_inv c s
  · exact h.of_host_fields s.turns (some v)
  · obtain ⟨i, rfl⟩ | ⟨b, hb, rfl⟩ | ⟨b, hb, rfl⟩ | ⟨b, hb, rfl⟩ | ⟨n, hn, rfl⟩ | ⟨n, hn, rfl⟩ := hopen
    · exact startCommand_inv h ho _
    · exact h.of_open ho rfl rfl rfl rfl rfl rfl { hfit with key_le := hb }
    · exact h.of_open ho rfl rfl rfl rfl rfl rfl { hfit with iv_le := hb }
    · exact h.of_open ho rfl rfl rfl rfl rfl rfl { hfit with inp_le := hb }
    · exact h.of_open ho rfl rfl rfl rfl rfl rfl { hfit with blksz_le := hn }
    · exact h.of_open ho rfl rfl rfl rfl rfl rfl { hfit with origlen_lt := hn }

/-- Settles O33, by what the turn of the step can do. -/
theorem everyStepKeepsTheInvariant : Obligations.EveryStepKeepsTheInvariant := by
  intro s t h ht
  obtain ⟨ts, he⟩ | ⟨ts, -, rfl⟩ | ⟨m, ts, -, hm⟩ := step_next ht
  · exact engineStep_inv (h.of_host_fields ts s.readData) he
  · exact h.of_host_fields _ _
  · exact hostMove_inv (h.of_host_fields ts s.readData) hm

end Sys2Proof.Machine
end

section
/-! PROOFS. START and the lockouts (R71, R273, R275, R276): a presented word runs the command it decodes to
in an open phase, and is refused in every other. -/

namespace Sys2Proof.Machine

theorem hostStart_of_decode (ex : Instr → State → Result) {w : BitVec 8} {s : State} {i : Instr}
    {rest : Bytes} (ho : s.phase.hostOpen = true) (hd : decode [w] = .ok (i, rest)) :
    hostStart ex w s = ex i s := by
  simp only [hostStart, ho, hd, if_true]

theorem hostStart_reserved (ex : Instr → State → Result) {w : BitVec 8} {s : State}
    (ho : s.phase.hostOpen = true) (hw : commandWordWellFormed w = false) :
    hostStart ex w s = .refused .reservedCommandWord := by
  simp only [hostStart, ho, decode, decodeWord_reserved hw, if_true]

theorem hostStart_locked (ex : Instr → State → Result) (w : BitVec 8) {s : State}
    (ho : s.phase.hostOpen = false) : hostStart ex w s = .refused (lockoutReason s.phase) := by
  simp [hostStart, ho]

/-- A presented word starts the command it decodes to. -/
theorem step_start {s : State} {w : BitVec 8} {i : Instr} {ts : List Turn}
    (ho : s.phase.hostOpen = true) (hi : decodeWord w = .ok i)
    (hts : s.turns = .host (.start w) :: ts) :
    step s = .next (startCommand (Command.ofInstr i) { s with turns := ts }) := by
  have hd := decode_cons_of_decodeWord hi []
  rw [step_host hts]
  exact (hostStart_of_decode exec (s := { s with turns := ts }) ho hd).trans (exec_open i ho)

/-- Settles O6. -/
theorem stepRunsDecodedCommand : Obligations.StepRunsDecodedCommand := by
  intro s w i rest ts hturns ho hd _
  rw [step_host hturns]
  exact hostStart_of_decode exec ho hd

/-- Settles O7: listed or not, an engine turn is the engine's step, which is that of the command in `CMD`. -/
theorem engineTurnRunsTheCommandRegister : Obligations.EngineTurnRunsTheCommandRegister := by
  refine ⟨fun s hts hb => ?_, fun s ts hts hb => ?_, fun s hts hb => ?_, fun s ts hts hb => ?_⟩
  · rw [step_nil hts, exec_cmd_instr hb]
  · rw [step_engine hts]
    exact (exec_cmd_instr (s := { s with turns := ts }) hb).symm
  · rw [step_nil hts, engineStep_quiescent _ hb]
  · rw [step_engine hts]
    exact engineStep_quiescent _ hb

/-- Settles O8. -/
theorem everyCommandStartsInAnOpenPhase : Obligations.EveryCommandStartsInAnOpenPhase :=
  fun i _ ho => exec_open i ho

/-- R91: the four fields of `CMD` are the low four bits of the command's word. -/
theorem ofInstr_eq_bits (i : Instr) :
    Command.ofInstr i =
      { op := if (encode i).getLsbD 0 then .decrypt else .encrypt
        mode := if (encode i).getLsbD 1 then .cbc else .ecb
        ivp := (encode i).getLsbD 2
        olp := (encode i).getLsbD 3 } := by
  cases i with
  | encEcb ivp olp => cases ivp <;> cases olp <;> rfl
  | decEcb ivp olp => cases ivp <;> cases olp <;> rfl
  | encCbc ivp olp => cases ivp <;> cases olp <;> rfl
  | decCbc ivp olp => cases ivp <;> cases olp <;> rfl

/-- Settles O9. -/
theorem startWritesTheCommandWordOrIsRefused : Obligations.StartWritesTheCommandWordOrIsRefused := by
  intro s w ts hts
  constructor
  · intro ho hw
    obtain ⟨i, hi⟩ := exists_decodeWord hw
    rw [step_start ho hi hts, ofInstr_eq_bits, encode_decodeWord hi]
    rfl
  · intro h
    rw [step_host hts]
    cases ho : s.phase.hostOpen with
    | false => exact ⟨_, hostStart_locked exec w ho⟩
    | true => exact ⟨_, hostStart_reserved exec ho (by simpa [ho] using h)⟩

theorem commandStep_locked {bt : BlockTransform} {c : Command} {s : State}
    (ho : s.phase.hostOpen = false) (h : ¬(s.phase.busy = true ∧ s.cmd = c)) :
    commandStep bt c s = .refused (lockoutReason s.phase) := by
  rw [commandStep, if_neg (by simp [ho]), if_neg h]

/-- Settles O10. -/
theorem commandIsLockedOutWhileAnotherRunsAndInFault :
    Obligations.CommandIsLockedOutWhileAnotherRunsAndInFault := by
  refine ⟨fun i s hb hc => ?_, fun i s hp => ?_⟩
  · rw [exec_eq_execWith, execWith,
      commandStep_locked (hostOpen_eq_false_of_busy hb) fun h => hc h.2, lockoutReason, if_pos hb]
  · rw [exec_eq_execWith, execWith,
      commandStep_locked (by rw [hp]; rfl) fun h => by simp [hp, Phase.busy] at h, hp]
    rfl

end Sys2Proof.Machine
end

section
/-! PROOFS. The steps of a running command (R235 to R239): what validation reports, then one equation per branch
of each engine step, from which the step of every command is read off. -/

namespace Sys2Proof.Machine

/-! VALIDATE -/

/-- The four outcomes of validation, in the priority of R125, each under the condition it stands for. -/
theorem validate_cases (mode : Mode) (bs keylen : Nat) (ivOpt : Option Bytes) :
    (bs = 0 ∧ validate mode bs keylen ivOpt = .error .invalidConfig) ∨
      (bs ≠ 0 ∧ keylen < bs ∧ validate mode bs keylen ivOpt = .error .invalidKey) ∨
      (bs ≠ 0 ∧ bs ≤ keylen ∧ (mode = .cbc ∧ ∀ iv, ivOpt = some iv → iv.length ≠ bs) ∧
        validate mode bs keylen ivOpt = .error .invalidIV) ∨
      (bs ≠ 0 ∧ bs ≤ keylen ∧ (mode = .cbc → ∃ iv, ivOpt = some iv ∧ iv.length = bs) ∧
        validate mode bs keylen ivOpt = .ok ()) := by
  by_cases hbs : bs = 0
  · exact .inl ⟨hbs, by simp [validate, hbs]⟩
  by_cases hkey : keylen < bs
  · exact .inr (.inl ⟨hbs, hkey, by simp [validate, hbs, hkey]⟩)
  have hle : bs ≤ keylen := not_lt.mp hkey
  by_cases hiv : mode = .cbc → ∃ iv, ivOpt = some iv ∧ iv.length = bs
  · exact .inr (.inr (.inr ⟨hbs, hle, hiv, validate_eq_ok_iff.mpr ⟨Nat.pos_of_ne_zero hbs, hle, hiv⟩⟩))
  · push Not at hiv
    obtain ⟨rfl, hno⟩ := hiv
    refine .inr (.inr (.inl ⟨hbs, hle, ⟨rfl, hno⟩, ?_⟩))
    cases ivOpt with
    | none => simp [validate, hbs, hkey]
    | some iv => simp [validate, hbs, hkey, hno iv rfl]

/-- Settles O11: the four conditions of `validate_cases` exclude each other. -/
theorem validationReportsTheFirstFailingCheck : Obligations.ValidationReportsTheFirstFailingCheck := by
  intro mode bs keylen ivOpt
  obtain ⟨rfl, hv⟩ | ⟨hbs, hkey, hv⟩ | ⟨hbs, hkey, ⟨rfl, hiv⟩, hv⟩ | ⟨hbs, hkey, hiv, hv⟩ :=
    validate_cases mode bs keylen ivOpt
  · simp [hv]
  · simp [hv, hbs, hkey]
  · have hnone : ¬∃ iv, ivOpt = some iv ∧ iv.length = bs := fun ⟨iv, he, hl⟩ => hiv iv he hl
    simpa [hv, hbs, hkey, hnone] using hiv
  · simpa [hv, hbs, hkey, hkey.not_gt] using hiv

theorem validateStep_ok {s : State}
    (h : validate s.cmd.mode s.blksz s.key.length s.ivOpt = .ok ()) :
    validateStep s = .next { s with phase := .prep } := by
  simp only [validateStep, h]

theorem validateStep_error {s : State} {k : ModeError}
    (h : validate s.cmd.mode s.blksz s.key.length s.ivOpt = .error k) :
    validateStep s = .next (errorEntry k s) := by
  simp only [validateStep, h]

/-- Settles O12. -/
theorem validateStepOfEveryCommand : Obligations.ValidateStepOfEveryCommand := by
  intro i s hp hc
  rw [exec_running (by rw [hp]; rfl) hc, engineStep_validate _ hp]
  exact ⟨validateStep_ok, fun _ => validateStep_error⟩

/-! PREP -/

theorem prepStep_encrypt {s : State} (hbs : 0 < s.blksz) (hop : s.cmd.op = .encrypt) :
    prepStep s = .next (beginBlocks (pad s.inp s.blksz) s) := by
  simp only [prepStep, hbs.ne', hop, if_false]

theorem prepStep_decrypt {s : State} (hbs : 0 < s.blksz) (hop : s.cmd.op = .decrypt)
    (hmod : s.inp.length % s.blksz = 0) (hcut : s.cmd.olp = true → s.origlen ≤ s.inp.length) :
    prepStep s = .next (beginBlocks s.inp s) := by
  have hno : ¬(s.cmd.olp = true ∧ s.inp.length < s.origlen) := fun h => (hcut h.1).not_gt h.2
  simp [prepStep, hbs.ne', hop, hmod, hno]

theorem prepStep_partitionAssert {s : State} (hbs : 0 < s.blksz) (hop : s.cmd.op = .decrypt)
    (hmod : s.inp.length % s.blksz ≠ 0) :
    prepStep s = .next (faultEntry .partitionAssert s) := by
  simp [prepStep, hbs.ne', hop, hmod]

theorem prepStep_unpadRange {s : State} (hbs : 0 < s.blksz) (hop : s.cmd.op = .decrypt)
    (hmod : s.inp.length % s.blksz = 0) (holp : s.cmd.olp = true) (hlt : s.inp.length < s.origlen) :
    prepStep s = .next (faultEntry .unpadRange s) := by
  simp [prepStep, hbs.ne', hop, hmod, holp, hlt]

/-- The PREP step's update with its fields written out. -/
theorem beginBlocks_eq {s : State} {w : Bytes} {n : Nat} {p : Option Bytes}
    (hn : w.length / s.blksz = n) (hcbc : s.cmd.mode = .cbc → p = some s.iv)
    (hecb : s.cmd.mode = .ecb → p = none) :
    beginBlocks w s =
      { s with work := w, nblk := n, bidx := 0, out := [], prev := p, phase := .process } := by
  have hprev : (beginBlocks w s).prev = p := by
    cases hm : s.cmd.mode with
    | ecb => rw [beginBlocks_prev_ecb w s hm, hecb hm]
    | cbc => rw [beginBlocks_prev_cbc w s hm, hcbc hm]
  rw [← hn, ← hprev]
  rfl

/-- Settles O13. -/
theorem prepStepOfEncryptCommands : Obligations.PrepStepOfEncryptCommands := by
  intro ivp olp s hp hbs
  have hbusy : s.phase.busy = true := by rw [hp]; rfl
  constructor <;>
  · intro hc
    rw [exec_running hbusy hc, engineStep_prep _ hp, prepStep_encrypt hbs (by rw [hc]; rfl),
      beginBlocks_eq (pad_length_div hbs)] <;>
    simp [hc, Command.ofInstr]

/-- Settles O14. -/
theorem prepStepOfDecryptCommands : Obligations.PrepStepOfDecryptCommands := by
  intro ivp olp s hp hbs hmod hcut
  have hbusy : s.phase.busy = true := by rw [hp]; rfl
  constructor <;>
  · intro hc
    have holp : s.cmd.olp = olp := by rw [hc]; rfl
    rw [exec_running hbusy hc, engineStep_prep _ hp,
      prepStep_decrypt hbs (by rw [hc]; rfl) hmod (holp ▸ hcut), beginBlocks_eq rfl] <;>
    simp [hc, Command.ofInstr]

/-- Settles O15. -/
theorem decryptFaultsOnBadLengths : Obligations.DecryptFaultsOnBadLengths := by
  intro i s hp hc hop hbs
  rw [exec_running (by rw [hp]; rfl) hc, engineStep_prep _ hp]
  exact ⟨prepStep_partitionAssert hbs hop, prepStep_unpadRange hbs hop⟩

/-! PROCESS -/

theorem processStep_fail {bt : BlockTransform} {s : State} {b : Bytes} (hlt : s.bidx < s.nblk)
    (hb : slice s.work s.blksz s.bidx = some b)
    (hs : blockStep bt s.cmd.op s.cmd.mode b s.key s.prev = .ok none) :
    processStep bt s = .next (errorEntry .transformFailure s) := by
  simp only [processStep, hlt, hb, hs, if_true]

theorem processStep_done {bt : BlockTransform} {s : State} {b o : Bytes} {prev' : Option Bytes}
    (hlt : s.bidx < s.nblk) (hb : slice s.work s.blksz s.bidx = some b)
    (hs : blockStep bt s.cmd.op s.cmd.mode b s.key s.prev = .ok (some (o, prev'))) :
    processStep bt s = .next (blockDone o prev' s) := by
  simp only [processStep, hlt, hb, hs, if_true]

theorem processStep_exit (bt : BlockTransform) {s : State} (he : s.bidx = s.nblk) :
    processStep bt s = .next (loopExit s) := by
  simp [processStep, he]

theorem blockStep_ecb (bt : BlockTransform) (op : Op) (b key : Bytes) (prev : Option Bytes) :
    blockStep bt op .ecb b key prev = .ok ((ecbStep bt op b key).map fun o => (o, none)) := rfl

theorem blockStep_cbc (bt : BlockTransform) (op : Op) {b key v : Bytes} (hv : v.length = b.length) :
    blockStep bt op .cbc b key (some v) =
      .ok ((cbcStep bt op b key v).map fun r => (r.1, some r.2)) := by
  simp only [blockStep, hv, if_true]

theorem slice_of_le {pm : Bytes} {bs i : Nat} (hbs : 0 < bs) (hle : (i + 1) * bs ≤ pm.length) :
    slice pm bs i = some (memRead pm (i * bs) bs) :=
  slice_eq_some.mpr ⟨⟨hbs, hle⟩, rfl⟩

section
variable {i : Instr} {s : State} {b o : Bytes} {prev' : Option Bytes}

theorem exec_block_done (hp : s.phase = .process) (hc : s.cmd = Command.ofInstr i)
    (hlt : s.bidx < s.nblk) (hb : slice s.work s.blksz s.bidx = some b)
    (hs : blockStep Config.transform s.cmd.op s.cmd.mode b s.key s.prev = .ok (some (o, prev'))) :
    exec i s = .next { s with out := s.out ++ o, prev := prev', bidx := s.bidx + 1 } := by
  rw [exec_running (by rw [hp]; rfl) hc, engineStep_process _ hp, processStep_done hlt hb hs]
  rfl

theorem exec_block_fail (hp : s.phase = .process) (hc : s.cmd = Command.ofInstr i)
    (hlt : s.bidx < s.nblk) (hb : slice s.work s.blksz s.bidx = some b)
    (hs : blockStep Config.transform s.cmd.op s.cmd.mode b s.key s.prev = .ok none) :
    exec i s = .next { s with
      err := some .transformFailure, out := [], prev := none, work := [], phase := .error } := by
  rw [exec_running (by rw [hp]; rfl) hc, engineStep_process _ hp, processStep_fail hlt hb hs]
  rfl

end

/-- Settles O16, by whether the transform answers. -/
theorem processBlockOfEcbCommands : Obligations.ProcessBlockOfEcbCommands := by
  intro ivp olp s hp hlt hbs hle
  have hb := slice_of_le hbs hle
  constructor
  · intro hc
    cases hE : Config.transform.E (memRead s.work (s.bidx * s.blksz) s.blksz) s.key with
    | none =>
      exact exec_block_fail hp hc hlt hb (by simp [hc, Command.ofInstr, blockStep_ecb, ecbStep, hE])
    | some x =>
      exact exec_block_done hp hc hlt hb (by simp [hc, Command.ofInstr, blockStep_ecb, ecbStep, hE])
  · intro hc
    cases hD : Config.transform.D (memRead s.work (s.bidx * s.blksz) s.blksz) s.key with
    | none =>
      exact exec_block_fail hp hc hlt hb (by simp [hc, Command.ofInstr, blockStep_ecb, ecbStep, hD])
    | some x =>
      exact exec_block_done hp hc hlt hb (by simp [hc, Command.ofInstr, blockStep_ecb, ecbStep, hD])

/-- Settles O17, by whether the transform answers. -/
theorem processBlockOfEncCbc : Obligations.ProcessBlockOfEncCbc := by
  intro ivp olp s v hp hc hlt hbs hle hprev hv
  have hb := slice_of_le hbs hle
  have hlen := hv.trans (slice_length hb).symm
  have hstep := blockStep_cbc Config.transform .encrypt (key := s.key) hlen
  cases hE : Config.transform.E (xorBytes (memRead s.work (s.bidx * s.blksz) s.blksz) v) s.key with
  | none =>
    exact exec_block_fail hp hc hlt hb
      (by simp [hc, Command.ofInstr, hprev, hstep, cbcStep, cbcEncStep, hE])
  | some x =>
    exact exec_block_done hp hc hlt hb
      (by simp [hc, Command.ofInstr, hprev, hstep, cbcStep, cbcEncStep, hE])

/-- Settles O18, by whether the transform answers. -/
theorem processBlockOfDecCbc : Obligations.ProcessBlockOfDecCbc := by
  intro ivp olp s v hp hc hlt hbs hle hprev hv
  have hb := slice_of_le hbs hle
  have hlen := hv.trans (slice_length hb).symm
  have hstep := blockStep_cbc Config.transform .decrypt (key := s.key) hlen
  cases hD : Config.transform.D (memRead s.work (s.bidx * s.blksz) s.blksz) s.key with
  | none =>
    exact exec_block_fail hp hc hlt hb
      (by simp [hc, Command.ofInstr, hprev, hstep, cbcStep, cbcDecStep, hD])
  | some x =>
    exact exec_block_done hp hc hlt hb
      (by simp [hc, Command.ofInstr, hprev, hstep, cbcStep, cbcDecStep, hD])

/-- Settles O19. -/
theorem loopExitOfEveryCommand : Obligations.LoopExitOfEveryCommand := by
  intro i s hp hc he
  rw [exec_running (by rw [hp]; rfl) hc, engineStep_process _ hp]
  exact processStep_exit _ he

/-! FINISH -/

theorem finishStep_cut {s : State} (hop : s.cmd.op = .decrypt) (holp : s.cmd.olp = true)
    (hle : s.origlen ≤ s.out.length) :
    finishStep s = .next { s with out := unpad s.out s.origlen, phase := .done } := by
  simp only [finishStep, hop, holp, hle, and_self, if_true]

theorem finishStep_keep {s : State} (h : ¬(s.cmd.op = .decrypt ∧ s.cmd.olp = true)) :
    finishStep s = .next { s with phase := .done } := by
  rw [finishStep, if_neg h]

/-- Settles O20. -/
theorem finishStepOfEveryCommand : Obligations.FinishStepOfEveryCommand := by
  intro i s hp hc
  rw [exec_running (by rw [hp]; rfl) hc, engineStep_finish _ hp]
  refine ⟨fun h => finishStep_keep ?_, finishStep_cut⟩
  rintro ⟨hop, holp⟩
  simp [hop, holp] at h

end Sys2Proof.Machine
end

section
/-! PROOFS. What the step of a command leaves unchanged (R11, R60, R63): the frame of each update a step can make,
and the place in `OUT` at which a finished block is stored. -/

namespace Sys2Proof.Machine

/-- The frame of a command's step from `s` to `t`, `CMD` apart. The clauses on `OUT` say which of the two
contents extends the other. -/
structure CommandFrame (s t : State) : Prop where
  blksz : t.blksz = s.blksz
  origlen : t.origlen = s.origlen
  turns : t.turns = s.turns
  readData : t.readData = s.readData
  key : t.key = s.key
  iv : t.iv = s.iv
  inp : t.inp = s.inp
  err : s.phase.busy = true → t.phase ≠ .error → t.err = s.err
  fcause : t.phase ≠ .fault → t.fcause = s.fcause
  nblk : s.phase ≠ .prep → t.nblk = s.nblk
  bidx : t.phase ≠ .process → t.bidx = s.bidx ∧ t.nblk = s.nblk
  chain_fault : t.phase = .fault → t.prev = s.prev ∧ t.work = s.work
  chain_outside : s.phase ≠ .prep → s.phase ≠ .process → t.phase ≠ .error →
    t.prev = s.prev ∧ t.work = s.work
  work_process : s.phase = .process → t.phase = .process → t.work = s.work
  out_process : s.phase = .process → t.phase = .process → s.out <+: t.out
  out_validate : s.phase = .validate → t.phase = .prep → t.out = s.out
  out_exit : t.phase = .finish → t.out = s.out
  out_finish : s.phase = .finish → t.out <+: s.out

section
variable {s t : State}

theorem startCommand_frame (ho : s.phase.hostOpen = true) (c : Command) :
    CommandFrame s (startCommand c s) := by
  obtain hp | hp | hp := hostOpen_cases ho <;>
  constructor <;> simp [hp, Phase.busy]

theorem errorEntry_frame (s : State) (k : ModeError) : CommandFrame s (errorEntry k s) := by
  constructor <;> simp

theorem faultEntry_frame (hp : s.phase = .prep) (f : FaultCause) : CommandFrame s (faultEntry f s) := by
  constructor <;> simp [hp]

theorem beginBlocks_frame (hp : s.phase = .prep) (w : Bytes) : CommandFrame s (beginBlocks w s) := by
  constructor <;> simp [hp]

theorem blockDone_frame (hp : s.phase = .process) (o : Bytes) (prev' : Option Bytes) :
    CommandFrame s (blockDone o prev' s) := by
  constructor <;> simp [hp]

theorem loopExit_frame (hp : s.phase = .process) : CommandFrame s (loopExit s) := by
  constructor <;> simp [hp]

theorem validateStep_frame (hp : s.phase = .validate) (h : validateStep s = .next t) :
    CommandFrame s t := by
  obtain ⟨-, rfl⟩ | ⟨k, -, rfl⟩ := validateStep_next h
  · constructor <;> simp [hp]
  · exact errorEntry_frame s k

theorem finishStep_frame (hp : s.phase = .finish) (h : finishStep s = .next t) : CommandFrame s t := by
  obtain ⟨-, -, -, rfl⟩ | ⟨-, rfl⟩ := finishStep_next h <;>
  constructor <;> simp [hp, unpad, List.take_prefix]

theorem engineStep_frame {bt : BlockTransform} (hb : s.phase.busy = true)
    (h : engineStep bt s = .next t) : CommandFrame s t ∧ t.cmd = s.cmd := by
  obtain ⟨hq, -⟩ | ⟨hp, h⟩ | ⟨hp, h⟩ | ⟨hp, h⟩ | ⟨hp, h⟩ := engineStep_next h
  · simp [hb] at hq
  · refine ⟨validateStep_frame hp h, ?_⟩
    obtain ⟨-, rfl⟩ | ⟨k, -, rfl⟩ := validateStep_next h <;> rfl
  · obtain ⟨-, ⟨-, rfl⟩ | ⟨-, -, rfl⟩ | ⟨-, -, -, -, rfl⟩ | ⟨-, -, -, rfl⟩⟩ := prepStep_next h
    · exact ⟨beginBlocks_frame hp _, rfl⟩
    · exact ⟨faultEntry_frame hp _, rfl⟩
    · exact ⟨faultEntry_frame hp _, rfl⟩
    · exact ⟨beginBlocks_frame hp _, rfl⟩
  · obtain ⟨-, -, -, ⟨-, rfl⟩ | ⟨o, prev', -, rfl⟩⟩ | ⟨-, rfl⟩ := processStep_next h
    · exact ⟨errorEntry_frame s _, rfl⟩
    · exact ⟨blockDone_frame hp o prev', rfl⟩
    · exact ⟨loopExit_frame hp, rfl⟩
  · refine ⟨finishStep_frame hp h, ?_⟩
    obtain ⟨-, -, -, rfl⟩ | ⟨-, rfl⟩ := finishStep_next h <;> rfl

theorem execWith_frame {bt : BlockTransform} {i : Instr} (h : execWith bt i s = .next t) :
    CommandFrame s t ∧ t.cmd = Command.ofInstr i := by
  obtain ⟨ho, rfl⟩ | ⟨hb, hc, he⟩ := commandStep_next h
  · exact ⟨startCommand_frame ho _, rfl⟩
  · exact hc ▸ engineStep_frame hb he

theorem byteAt_of_buffer_eq {sp : Space} (h : t.buffer sp = s.buffer sp) (a : Nat) :
    t.byteAt sp a = s.byteAt sp a := by
  rw [State.byteAt, h, State.byteAt]

theorem byteAt_out_of_prefix {a : Nat} (h : s.out <+: t.out) (ha : a < s.out.length) :
    t.byteAt .out a = s.byteAt .out a := by
  obtain ⟨o, ho⟩ := h
  simp only [State.byteAt, State.buffer, ← ho, List.getElem?_append_left ha]

end

/-- Settles O21: the frame of the step (`execWith_frame`), read byte by byte. -/
theorem commandStepFrame : Obligations.CommandStepFrame := by
  refine ⟨exec_eq_execWith, fun bt i s t h => ?_⟩
  obtain ⟨f, hcmd⟩ := execWith_frame h
  exact ⟨f.blksz, f.origlen, f.turns, f.readData, byteAt_of_buffer_eq f.key, byteAt_of_buffer_eq f.iv,
    byteAt_of_buffer_eq f.inp, hcmd, f.err, f.fcause, f.nblk, f.bidx,
    fun hf => ⟨(f.chain_fault hf).1, byteAt_of_buffer_eq (f.chain_fault hf).2⟩,
    fun hp hq he => (f.chain_outside hp hq he).1,
    fun hp hq he => byteAt_of_buffer_eq (f.chain_outside hp hq he).2,
    fun hp hq => byteAt_of_buffer_eq (f.work_process hp hq),
    fun hp hq _ => byteAt_out_of_prefix (f.out_process hp hq),
    fun hp hq => byteAt_of_buffer_eq (f.out_validate hp hq),
    fun hq => byteAt_of_buffer_eq (f.out_exit hq),
    fun hp _ ha => (byteAt_out_of_prefix (f.out_finish hp) ha).symm⟩

/-- Of the steps of a running command in PROCESS only a finished block stays there. -/
theorem execWith_process_next {bt : BlockTransform} {i : Instr} {s t : State} (hp : s.phase = .process)
    (hlt : s.bidx < s.nblk) (h : execWith bt i s = .next t) (hq : t.phase = .process) :
    ∃ o prev', o.length = s.blksz ∧ t = blockDone o prev' s := by
  obtain ⟨ho, -⟩ | ⟨-, -, he⟩ := commandStep_next h
  · simp [hp, Phase.hostOpen] at ho
  rw [engineStep_process bt hp] at he
  obtain ⟨b, -, hb, ⟨-, rfl⟩ | ⟨o, prev', hs, rfl⟩⟩ | ⟨he, -⟩ := processStep_next he
  · simp at hq
  · exact ⟨o, prev', (blockStep_ok hs).1.trans (slice_length hb), rfl⟩
  · exact absurd he hlt.ne

/-- Settles O22: under the state laws `OUT` holds `BIDX * BLKSZ` bytes, so the append is a write at that
offset. -/
theorem blockIsStoredAtItsOwnOffset : Obligations.BlockIsStoredAtItsOwnOffset := by
  refine ⟨exec_eq_execWith, fun bt i s t hs hp hlt h hq => ?_⟩
  obtain ⟨o, prev', ho, rfl⟩ := execWith_process_next hp hlt h hq
  have hlen : s.out.length = s.bidx * s.blksz := hs.out_length hp
  refine ⟨⟨o, ho, ?written⟩, ?frame, ?grown⟩
  case written => rw [← hlen, memWrite_at_end, blockDone_out]
  case frame =>
    rintro a (ha | ha)
    · exact byteAt_out_of_prefix (List.prefix_append _ _) (hlen ▸ ha)
    · have hin : s.out.length ≤ a := by rw [Nat.succ_mul] at ha; omega
      have hout : (s.out ++ o).length ≤ a := by rw [List.length_append, hlen, ho, ← Nat.succ_mul]; exact ha
      simp only [State.byteAt, State.buffer, blockDone_out, List.getElem?_eq_none hin,
        List.getElem?_eq_none hout]
  case grown => rw [blockDone_out, List.length_append, ho]

end Sys2Proof.Machine
end

section
/-! PROOFS. The moves of the host (R270 to R276, R330): loads and sets in an open phase, which reads are
permitted and what they hand over, and the two lockouts. -/

namespace Sys2Proof.Machine

/-! LOAD and SET -/

theorem loadBuffer_open {capacity : Nat} {bytes : Bytes} {store : State → State} {s : State}
    (ho : s.phase.hostOpen = true) (hl : bytes.length ≤ capacity) :
    loadBuffer capacity bytes store s = .next (store s) := by
  rw [loadBuffer, if_pos ho, if_pos hl]

theorem setRegister_open {inRange : Bool} {store : State → State} {s : State}
    (ho : s.phase.hostOpen = true) (hr : inRange = true) :
    setRegister inRange store s = .next (store s) := by
  rw [setRegister, if_pos ho, if_pos hr]

theorem setRegister_refused {inRange : Bool} {store : State → State} {s : State}
    (h : s.phase.hostOpen = false ∨ inRange = false) :
    ∃ r, setRegister inRange store s = .refused r := by
  rw [setRegister]
  cases ho : s.phase.hostOpen with
  | false => exact ⟨_, rfl⟩
  | true =>
    have hr : inRange = false := by simpa [ho] using h
    exact ⟨.outOfRange, by simp [hr]⟩

/-- Settles O23. -/
theorem loadReplacesTheWholeBuffer : Obligations.LoadReplacesTheWholeBuffer := by
  intro s bytes ts ho
  refine ⟨fun hts hl => ?_, fun hts hl => ?_, fun hts hl => ?_⟩ <;>
  · rw [step_host hts, hostMove, hostLoad, Reg.ofNumber_number]
    exact loadBuffer_open ho hl

/-- Settles O24. -/
theorem setWritesTheRegisterOrIsRefused : Obligations.SetWritesTheRegisterOrIsRefused := by
  intro s n ts
  constructor <;>
  · intro hts
    rw [step_host hts, hostMove, hostSet, Reg.ofNumber_number]
    refine ⟨fun ho hn => setRegister_open ho (decide_eq_true hn), fun h => setRegister_refused ?_⟩
    exact h.imp_right fun hn => by simpa using hn

/-! READ -/

theorem hostRead_permitted {s : State} {reg : BitVec 4} {r : Reg} {v : ReadData}
    (hr : Reg.ofNumber reg = some r) (hp : readRefusal s.phase r = none) (hv : s.regValue r = some v) :
    hostRead reg s = .next (deliver v s) := by
  simp only [hostRead, hr, hp, hv]

theorem hostRead_refused {s : State} {r : Reg} {q : Refusal} (hp : readRefusal s.phase r = some q) :
    hostRead r.number s = .refused q := by
  simp only [hostRead, Reg.ofNumber_number, hp]

theorem ne_done_of_busy {p : Phase} (h : p.busy = true) : p ≠ .done := by
  rintro rfl
  cases h

theorem readRefusal_busy {p : Phase} {r : Reg} (hb : p.busy = true) (hr : r ≠ .status) :
    ∃ q, readRefusal p r = some q := by
  have hd := ne_done_of_busy hb
  cases r <;> simp_all [readRefusal]

theorem readRefusal_result {p : Phase} {r : Reg} (hd : p ≠ .done) (hr : r = .outport ∨ r = .outlen) :
    ∃ q, readRefusal p r = some q := by
  obtain rfl | rfl := hr <;> cases hb : p.busy <;> simp [readRefusal, hd, hb]

theorem readRefusal_loadPort (p : Phase) {r : Reg} (hr : r = .keyport ∨ r = .ivport ∨ r = .inport) :
    ∃ q, readRefusal p r = some q := by
  obtain rfl | rfl | rfl := hr <;> exact ⟨_, rfl⟩

/-- Outside the busy phases, every register that is neither a load port nor the result may be read. -/
theorem readRefusal_quiescent {p : Phase} {r : Reg} (hb : p.busy = false)
    (hr : r = .cmd ∨ r = .status ∨ r = .err ∨ r = .fcause ∨ r = .blksz ∨ r = .origlen ∨ r = .keylen ∨
      r = .ivlen ∨ r = .inlen) : readRefusal p r = none := by
  obtain rfl | rfl | rfl | rfl | rfl | rfl | rfl | rfl | rfl := hr <;> simp [readRefusal, hb]

/-- Settles O25. -/
theorem readsDeliverTheRegisters : Obligations.ReadsDeliverTheRegisters := by
  intro s r ts hts
  rw [step_host hts, hostMove]
  have hread {v : ReadData} (hp : readRefusal s.phase r = none) (hv : s.regValue r = some v) :
      hostRead r.number { s with turns := ts } = .next { s with turns := ts, readData := some v } :=
    hostRead_permitted (s := { s with turns := ts }) r.ofNumber_number hp hv
  have hrefuse (h : ∃ q, readRefusal s.phase r = some q) :
      ∃ q, hostRead r.number { s with turns := ts } = .refused q :=
    h.imp fun _ => hostRead_refused (s := { s with turns := ts })
  refine ⟨?status, ?out, ?outlen, fun hd hr => hrefuse (readRefusal_result hd hr),
    fun hr => hrefuse (readRefusal_loadPort _ hr), fun hr hb => hrefuse (readRefusal_busy hb hr), ?rest⟩
  case status => rintro rfl; exact hread rfl rfl
  case out => rintro hd rfl; exact hread (by simp [readRefusal, hd]) rfl
  case outlen => rintro hd rfl; exact hread (by simp [readRefusal, hd]) rfl
  case rest =>
    intro hb
    refine ⟨?_, ?_, ?_, ?_, ?_, ?_, ?_, ?_⟩ <;>
    · rintro rfl
      exact hread (readRefusal_quiescent hb (by simp)) rfl

/-! Which moves have a step -/

/-- In a phase that is not open the moves with a step are the reset and the permitted reads. -/
theorem hostMove_next_iff_of_not_open {m : HostMove} {s : State} {c : Capacities}
    (ho : s.phase.hostOpen = false) :
    (∃ t, hostMove c exec m s = .next t) ↔
      m = .reset ∨ ∃ r : Reg, m = .read r.number ∧ readRefusal s.phase r = none := by
  constructor
  case mp =>
    rintro ⟨t, ht⟩
    obtain ⟨hm, -⟩ | ⟨reg, v, rfl, -⟩ | ⟨hopen, -⟩ := hostMove_next ht
    · exact .inl hm
    · obtain ⟨r, v, hr, hp, -⟩ := hostRead_next ht
      exact .inr ⟨r, by rw [Reg.number_of_ofNumber hr], hp⟩
    · simp [ho] at hopen
  case mpr =>
    rintro (rfl | ⟨r, rfl, hp⟩)
    · exact ⟨_, rfl⟩
    · have hv : ∃ v, s.regValue r = some v := by
        cases r <;> simp_all [State.regValue, readRefusal]
      obtain ⟨v, hv⟩ := hv
      exact ⟨_, hostRead_permitted r.ofNumber_number hp hv⟩

/-- Settles O26. -/
theorem busyEngineLocksTheHostOut : Obligations.BusyEngineLocksTheHostOut := by
  intro s m ts hb hts
  rw [step_host hts,
    hostMove_next_iff_of_not_open (s := { s with turns := ts }) (hostOpen_eq_false_of_busy hb)]
  constructor
  · rintro (rfl | ⟨r, rfl, hp⟩)
    · exact .inr rfl
    · refine .inl (congrArg (fun q => HostMove.read (Reg.number q)) ?_)
      by_contra hr
      obtain ⟨q, hq⟩ := readRefusal_busy hb hr
      simp [hq] at hp
  · rintro (rfl | rfl)
    · exact .inr ⟨.status, rfl, rfl⟩
    · exact .inl rfl

/-- Settles O27. -/
theorem faultPhaseLocksTheHostOut : Obligations.FaultPhaseLocksTheHostOut := by
  intro s m ts hp hts
  have ho : s.phase.hostOpen = false := by rw [hp]; rfl
  have hb : s.phase.busy = false := by rw [hp]; rfl
  rw [step_host hts, hostMove_next_iff_of_not_open (s := { s with turns := ts }) ho]
  refine or_congr_right (exists_congr fun r => and_congr_right fun _ => ?_)
  refine ⟨fun hnone => ?_, readRefusal_quiescent hb⟩
  cases r <;> simp_all [readRefusal]

/-- A host move never ends in a fault of the model: a START it accepts is in an open phase. -/
theorem hostMove_ne_fault (c : Capacities) (m : HostMove) (s : State) (f : Fault) :
    hostMove c exec m s ≠ .fault f := by
  have hbuffer (n : Nat) (b : Bytes) (store : State → State) : loadBuffer n b store s ≠ .fault f := by
    unfold loadBuffer
    split
    · split <;> simp
    · simp
  have hreg (b : Bool) (store : State → State) : setRegister b store s ≠ .fault f := by
    unfold setRegister
    split
    · split <;> simp
    · simp
  cases m with
  | load port bytes =>
    rw [hostMove, hostLoad]
    split <;> simp [hbuffer]
  | set reg n =>
    rw [hostMove, hostSet]
    split <;> simp [hreg]
  | start w =>
    rw [hostMove, hostStart]
    split
    next ho =>
      split
      · rw [exec_open _ ho]
        simp
      · simp
    · simp
  | read reg =>
    rw [hostMove, hostRead]
    split
    · simp
    · split <;> simp
  | reset => simp [hostMove]

theorem wellFormed_of_hostMove_next {c : Capacities} {m : HostMove} {s t : State}
    (h : hostMove c exec m s = .next t) : m.wellFormed c = true := by
  cases m with
  | load port bytes =>
    obtain ⟨-, ⟨hr, hl, -⟩ | ⟨hr, hl, -⟩ | ⟨hr, hl, -⟩⟩ := hostLoad_next h <;>
    simp [HostMove.wellFormed, ← Reg.number_of_ofNumber hr, Reg.number, hl]
  | set reg n =>
    obtain ⟨-, ⟨hr, hn, -⟩ | ⟨hr, hn, -⟩⟩ := hostSet_next h <;>
    simp [HostMove.wellFormed, ← Reg.number_of_ofNumber hr, Reg.number, hn]
  | start w =>
    obtain ⟨-, i, rest, hd, -⟩ := hostStart_next h
    by_contra hw
    simp [decode, decodeWord_reserved (Bool.eq_false_of_not_eq_true hw)] at hd
  | read reg =>
    obtain ⟨r, -, hr, hp, -⟩ := hostRead_next h
    rw [← Reg.number_of_ofNumber hr]
    cases r <;> simp_all [HostMove.wellFormed, Reg.number, readRefusal]
  | reset => rfl

/-- Settles O28: an ill-formed move has neither a next state nor a fault of the model. -/
theorem illFormedMovesAreRefused : Obligations.IllFormedMovesAreRefused := by
  intro s m ts hts hw
  rw [step_host hts]
  cases h : hostMove Config.capacities exec m { s with turns := ts } with
  | next t => simp [wellFormed_of_hostMove_next h] at hw
  | fault f => exact absurd h (hostMove_ne_fault _ _ _ _)
  | refused r => exact ⟨r, rfl⟩

/-- Settles O29. -/
theorem resetGivesTheResetState : Obligations.ResetGivesTheResetState := by
  intro s ts hts
  rw [step_host hts]
  rfl

/-! The flags (R27 to R29) -/

/-- Settles O30, phase by phase. -/
theorem statusBitsViewThePhase : Obligations.StatusBitsViewThePhase := by
  intro p
  cases p <;> decide

/-- Settles O60. -/
theorem errorAndFaultCodesAreTheNumbersOfTheSpec : Obligations.ErrorAndFaultCodesAreTheNumbersOfTheSpec :=
  ⟨⟨rfl, rfl, rfl, rfl, rfl⟩, rfl, rfl, rfl⟩

/-- What a register reads as depends on the secret buffers by their lengths only (R274). -/
theorem regValue_of_secrets {s : State} {key iv inp : Bytes} (hk : key.length = s.key.length)
    (hv : iv.length = s.iv.length) (hi : inp.length = s.inp.length) (work : Bytes) (prev : Option Bytes)
    (ts : List Turn) (r : Reg) :
    State.regValue
      { s with turns := ts, key := key, iv := iv, inp := inp, work := work, prev := prev } r =
      s.regValue r := by
  cases r <;> simp [State.regValue, hk, hv, hi]

/-- Settles O31. -/
theorem readsRevealNoSecret : Obligations.ReadsRevealNoSecret := by
  intro s t reg ts key iv inp work prev hts hk hv hi ht
  rw [step_host hts] at ht
  obtain ⟨r, v, hr, hp, hval, rfl⟩ := hostRead_next ht
  rw [step_host (s := { s with key := key, iv := iv, inp := inp, work := work, prev := prev }) hts]
  have hsecret := regValue_of_secrets hk hv hi work prev ts r
  exact ⟨_, hostRead_permitted hr hp (hsecret.trans hval), rfl⟩

end Sys2Proof.Machine
end

section
/-! PROOFS. What holds along every run (R37, R301, R302, R334): reachable states meet the invariant, a busy
engine keeps its operands, FAULT is left by reset alone, and no good state faults the model. -/

namespace Sys2Proof.Machine

/-- Settles O35: an engine step keeps the operands by its frame, and of the host's moves only the reset is
both accepted and a write. -/
theorem operandsAreStableWhileBusy : Obligations.OperandsAreStableWhileBusy := by
  intro s t hb ht
  obtain ⟨ts, he⟩ | ⟨ts, -, rfl⟩ | ⟨m, ts, hts, hm⟩ := step_next ht
  · obtain ⟨f, hcmd⟩ := engineStep_frame (s := { s with turns := ts }) hb he
    exact .inl ⟨f.blksz, f.key, f.iv, f.inp, f.origlen, hcmd⟩
  · exact .inl ⟨rfl, rfl, rfl, rfl, rfl, rfl⟩
  · obtain ⟨rfl, -⟩ | ⟨reg, v, -, rfl⟩ | ⟨ho, -⟩ := hostMove_next hm
    · exact .inr ⟨ts, hts⟩
    · exact .inl ⟨rfl, rfl, rfl, rfl, rfl, rfl⟩
    · simp [hostOpen_eq_false_of_busy hb] at ho

theorem inv_of_reachable {s : State} (h : Reachable s) : Inv Config.capacities s := by
  induction h with
  | reset => exact inv_reset _
  | @turns s ts _ ih => exact ih.of_host_fields ts s.readData
  | step _ ht ih => exact everyStepKeepsTheInvariant _ _ ih ht

/-- Settles O34. -/
theorem reachableStatesMeetTheStateLaws : Obligations.ReachableStatesMeetTheStateLaws :=
  fun s h => ⟨(inv_of_reachable h).toStateLaws, operandsAreStableWhileBusy s⟩

/-- Settles O36: in FAULT the engine has no step, and of the host's moves only the reset writes. -/
theorem faultIsLeftOnlyByReset : Obligations.FaultIsLeftOnlyByReset := by
  intro s t hp ht
  obtain ⟨ts, he⟩ | ⟨ts, -, rfl⟩ | ⟨m, ts, hts, hm⟩ := step_next ht
  · rw [engineStep_quiescent (s := { s with turns := ts }) _ (by rw [hp]; rfl)] at he
    obtain rfl := Host.Outcome.next.inj he
    exact .inl ⟨hp, rfl⟩
  · exact .inl ⟨hp, rfl⟩
  · obtain ⟨rfl, -⟩ | ⟨reg, v, -, rfl⟩ | ⟨ho, -⟩ := hostMove_next hm
    · exact .inr ⟨ts, hts⟩
    · exact .inl ⟨hp, rfl⟩
    · simp [hp, Phase.hostOpen] at ho

section
variable {c : Capacities} {s : State} (bt : BlockTransform)

/-- In PROCESS the block step is defined: the chain value is there in CBC and as long as the block. -/
theorem blockStep_defined (h : StateLaws s) (hp : s.phase = .process) {b : Bytes}
    (hb : b.length = s.blksz) : ∃ r, blockStep bt s.cmd.op s.cmd.mode b s.key s.prev = .ok r := by
  cases hm : s.cmd.mode with
  | ecb => exact ⟨_, blockStep_ecb bt _ _ _ _⟩
  | cbc =>
    obtain ⟨v, hv, hlen⟩ := h.prev_cbc hp hm
    rw [hv]
    exact ⟨_, blockStep_cbc bt _ (hlen.trans hb.symm)⟩

/-- In PROCESS every block still to be done lies inside `WORK`. -/
theorem slice_defined (h : StateLaws s) (hp : s.phase = .process) (hlt : s.bidx < s.nblk) :
    ∃ b, slice s.work s.blksz s.bidx = some b := by
  refine ⟨_, slice_of_le (h.blksz_pos hp) ?_⟩
  rw [h.work_length hp]
  exact Nat.mul_le_mul_right _ hlt

theorem processStep_total (h : StateLaws s) (hp : s.phase = .process) :
    ∃ t, processStep bt s = .next t := by
  obtain hlt | he := (h.bidx_le hp).lt_or_eq
  · obtain ⟨b, hb⟩ := slice_defined h hp hlt
    obtain ⟨r, hr⟩ := blockStep_defined bt h hp (slice_length hb)
    cases r with
    | none => exact ⟨_, processStep_fail hlt hb hr⟩
    | some r => exact ⟨_, processStep_done hlt hb hr⟩
  · exact ⟨_, processStep_exit bt he⟩

theorem validateStep_total (s : State) : ∃ t, validateStep s = .next t := by
  cases hv : validate s.cmd.mode s.blksz s.key.length s.ivOpt with
  | ok _ => exact ⟨_, validateStep_ok hv⟩
  | error k => exact ⟨_, validateStep_error hv⟩

theorem prepStep_total (hbs : 0 < s.blksz) : ∃ t, prepStep s = .next t := by
  cases hop : s.cmd.op with
  | encrypt => exact ⟨_, prepStep_encrypt hbs hop⟩
  | decrypt =>
    by_cases hmod : s.inp.length % s.blksz = 0
    · by_cases hcut : s.cmd.olp = true → s.origlen ≤ s.inp.length
      · exact ⟨_, prepStep_decrypt hbs hop hmod hcut⟩
      · push Not at hcut
        exact ⟨_, prepStep_unpadRange hbs hop hmod hcut.1 hcut.2⟩
    · exact ⟨_, prepStep_partitionAssert hbs hop hmod⟩

theorem finishStep_total
    (hcut : s.cmd.op = .decrypt → s.cmd.olp = true → s.origlen ≤ s.out.length) :
    ∃ t, finishStep s = .next t := by
  by_cases h : s.cmd.op = .decrypt ∧ s.cmd.olp = true
  · exact ⟨_, finishStep_cut h.1 h.2 (hcut h.1 h.2)⟩
  · exact ⟨_, finishStep_keep h⟩

/-- From a good state the engine always answers next. -/
theorem engineStep_total (h : Inv c s) : ∃ t, engineStep bt s = .next t := by
  cases hb : s.phase.busy with
  | false => exact ⟨s, engineStep_quiescent bt hb⟩
  | true =>
    obtain hp | hp | hp | hp := busy_cases hb
    · exact engineStep_validate bt hp ▸ validateStep_total s
    · exact engineStep_prep bt hp ▸ prepStep_total (h.validate_facts (.inl hp)).1
    · exact engineStep_process bt hp ▸ processStep_total bt h.toStateLaws hp
    · exact engineStep_finish bt hp ▸ finishStep_total (h.unpad_finish hp)

end

/-- Settles O37: the engine answers next (`engineStep_total`) and a host move never faults. -/
theorem goodStatesNeverFaultTheModel : Obligations.GoodStatesNeverFaultTheModel := by
  intro s f h hf
  cases hts : s.turns with
  | nil =>
    obtain ⟨t, ht⟩ := engineStep_total Config.transform h
    rw [step_nil hts, ht] at hf
    cases hf
  | cons turn ts =>
    cases turn with
    | engine =>
      obtain ⟨t, ht⟩ := engineStep_total Config.transform (h.of_host_fields ts s.readData)
      rw [step_engine hts, ht] at hf
      cases hf
    | wait => cases (step_wait hts).symm.trans hf
    | host m => exact hostMove_ne_fault _ _ _ f ((step_host hts).symm.trans hf)

theorem errCode_some_bounds (k : ModeError) :
    1 ≤ (errCode (some k)).toNat ∧ (errCode (some k)).toNat ≤ 4 := by
  cases k <;> decide

theorem fcauseCode_some_bounds (f : FaultCause) :
    1 ≤ (fcauseCode (some f)).toNat ∧ (fcauseCode (some f)).toNat ≤ 2 := by
  cases f <;> decide

/-- Settles O38: busy, or one of the four quiescent phases. -/
theorem hostSeesOneOfFivePictures : Obligations.HostSeesOneOfFivePictures := by
  intro s h
  cases hb : s.phase.busy with
  | true =>
    refine .inl ⟨?_, rfl⟩
    obtain hp | hp | hp | hp := busy_cases hb <;> rw [hp] <;> rfl
  | false =>
    obtain hp | hp | hp | hp := quiescent_cases hb
    · exact .inr (.inl ⟨by rw [hp]; rfl, hp, h.out_empty (.inl hp)⟩)
    · have herr := h.err_eq_none (by simp [hp])
      have hcause := h.fcause_eq_none (by simp [hp])
      exact .inr (.inr (.inl ⟨by rw [hp]; rfl, by rw [herr]; rfl, by rw [hcause]; rfl⟩))
    · obtain ⟨k, hk⟩ := Option.ne_none_iff_exists'.mp (h.err_iff.mpr hp)
      have hcause := h.fcause_eq_none (by simp [hp])
      obtain ⟨hlo, hhi⟩ := hk ▸ errCode_some_bounds k
      exact .inr (.inr (.inr (.inl
        ⟨by rw [hp]; rfl, hlo, hhi, by rw [hcause]; rfl, h.out_empty (by simp [hp])⟩)))
    · obtain ⟨f, hf⟩ := Option.ne_none_iff_exists'.mp (h.fcause_iff.mpr hp)
      have herr := h.err_eq_none (by simp [hp])
      obtain ⟨hlo, hhi⟩ := hf ▸ fcauseCode_some_bounds f
      exact .inr (.inr (.inr (.inr
        ⟨by rw [hp]; rfl, hlo, hhi, by rw [herr]; rfl, h.out_empty (by simp [hp])⟩)))

/-! Running (R14, R68) -/

theorem run_succ {s t : State} (h : step s = .next t) (k : Nat) : run (k + 1) s = run k t := by
  rw [run, h]

/-- Settles O57: after reset `BLKSZ` is 0, so validation of any command fails at its first check. -/
theorem commandAfterResetFailsValidation : Obligations.CommandAfterResetFailsValidation := by
  intro w hw
  obtain ⟨i, hi⟩ := exists_decodeWord hw
  have hval : step (startCommand (Command.ofInstr i) State.reset) =
      .next (errorEntry .invalidConfig (startCommand (Command.ofInstr i) State.reset)) := by
    rw [step_nil rfl, engineStep_validate _ rfl]
    exact validateStep_error rfl
  have hstart := step_start (s := presentStart w State.reset) rfl hi rfl
  have hrun := (run_succ hstart 1).trans (run_succ hval 0)
  exact ⟨_, hrun, rfl, rfl, rfl⟩

end Sys2Proof.Machine
end

section
/-! PROOFS. The Padder's laws and its byte-serial machine (R142 to R147), and the slice multiplexer (R161). -/

namespace Sys2Proof.Machine

/-! The number of filler bytes (R142) -/

theorem npad_lt (n : Nat) {bs : Nat} (h : 0 < bs) : npad n bs < bs := Nat.mod_lt _ h

theorem npad_of_aligned {n bs : Nat} (hmod : n % bs = 0) : npad n bs = 0 := by simp [npad, hmod]

theorem npad_of_not_aligned {n bs : Nat} (h : 0 < bs) (hmod : n % bs ≠ 0) :
    npad n bs = bs - n % bs := Nat.mod_eq_of_lt (by have := Nat.mod_lt n h; omega)

theorem npad_eq_zero_iff {n bs : Nat} (h : 0 < bs) : npad n bs = 0 ↔ n % bs = 0 := by
  refine ⟨fun h0 => ?_, npad_of_aligned⟩
  by_contra hmod
  have := Nat.mod_lt n h
  rw [npad_of_not_aligned h hmod] at h0
  omega

theorem dvd_add_npad (n : Nat) {bs : Nat} (h : 0 < bs) : bs ∣ n + npad n bs := by
  by_cases hmod : n % bs = 0
  · rw [npad_of_aligned hmod]
    exact Nat.dvd_of_mod_eq_zero hmod
  · have hsum : n + npad n bs = bs * (n / bs) + bs := by
      have := Nat.div_add_mod n bs
      have := Nat.mod_lt n h
      rw [npad_of_not_aligned h hmod]
      omega
    exact hsum ▸ (Nat.dvd_mul_right _ _).add dvd_rfl

/-- The padded length and `n + npad` are multiples of `bs` less than one block above `n`, so they agree. -/
theorem paddedLength_eq_add_npad (n : Nat) {bs : Nat} (h : 0 < bs) :
    paddedLength n bs = n + npad n bs := by
  have hlt : n + npad n bs < paddedLength n bs + bs :=
    Nat.add_lt_add_of_le_of_lt (le_paddedLength h) (npad_lt n h)
  exact Nat.le_antisymm (paddedLength_le_of_dvd h (dvd_add_npad n h) (Nat.le_add_right _ _))
    (Nat.le_of_lt_add_of_dvd hlt (dvd_add_npad n h) (dvd_paddedLength n bs))

/-- Settles O40. -/
theorem fillerCountIsNpad : Obligations.FillerCountIsNpad := by
  intro m bs h
  exact ⟨(pad_length h).trans (paddedLength_eq_add_npad _ h), Nat.le_sub_one_of_lt (npad_lt _ h),
    npad_eq_zero_iff h⟩

theorem pad_eq_append_npad {m : Bytes} {bs : Nat} (h : 0 < bs) :
    pad m bs = m ++ zeros (npad m.length bs) := by
  rw [pad, paddedLength_eq_add_npad _ h, Nat.add_sub_cancel_left]

/-! The padding machine (R143, R144) -/

theorem padFsmRun_add (m : Bytes) (bs a b : Nat) (r : PadRegs) :
    padFsmRun m bs (a + b) r = padFsmRun m bs b (padFsmRun m bs a r) := by
  induction a generalizing r with
  | zero => rw [Nat.zero_add, padFsmRun]
  | succ a ih => rw [Nat.succ_add, padFsmRun, padFsmRun, ih]

theorem padFsmRun_stop (m : Bytes) (bs k : Nat) {r : PadRegs} (h : r.st = .stop) :
    padFsmRun m bs k r = r := by
  induction k with
  | zero => rfl
  | succ k ih => rw [padFsmRun, padFsmStep, h]; exact ih

/-- In its first state the machine copies the rest of the message. -/
theorem padFsmRun_pass {m : Bytes} (bs : Nat) {sent rest : Bytes} (h : m = sent ++ rest) :
    padFsmRun m bs rest.length { st := .pass, j := sent.length, out := sent } =
      { st := .pass, j := m.length, out := m } := by
  induction rest generalizing sent with
  | nil => rw [h, List.append_nil]; rfl
  | cons b rest ih =>
    have hb : m[sent.length]? = some b := by simp [h]
    have hnext := ih (sent := sent ++ [b]) (by simp [h])
    rw [List.length_cons, padFsmRun, padFsmStep, ← hnext]
    simp [hb]

/-- In its second state it emits zeros up to the next multiple of the block size. -/
theorem padFsmRun_fill (m : Bytes) {bs : Nat} {k : Nat} (hk : 0 < k) (hlt : k < bs) {j : Nat}
    (hj : (j + k) % bs = 0) (out : Bytes) :
    padFsmRun m bs k { st := .fill, j := j, out := out } =
      { st := .stop, j := j + k, out := out ++ zeros k } := by
  induction k generalizing j out with
  | zero => cases hk
  | succ k ih =>
    rw [padFsmRun, padFsmStep]
    cases k with
    | zero => simp [hj, padFsmRun, zeros]
    | succ k =>
      have hstep : (j + 1) % bs ≠ 0 := by
        intro h0
        have hadd := Nat.add_mod (j + 1) (k + 1) bs
        rw [h0, Nat.zero_add, Nat.mod_mod, Nat.mod_eq_of_lt (Nat.lt_of_succ_lt hlt),
          Nat.add_assoc, Nat.add_comm 1, hj] at hadd
        cases hadd
      have hnext := ih (Nat.succ_pos k) (Nat.lt_of_succ_lt hlt) (j := j + 1)
        (by rw [← hj]; congr 1; omega) (out ++ [0#8])
      simp only [hstep, if_false]
      rw [hnext, Nat.add_assoc, Nat.add_comm 1, List.append_assoc]
      simp [zeros, List.replicate_succ]

/-- At the end of the message the machine stops, or goes on to fill. -/
theorem padFsmStep_end (m : Bytes) (bs : Nat) :
    padFsmStep m bs { st := .pass, j := m.length, out := m } =
      { st := if m.length % bs = 0 then .stop else .fill, j := m.length, out := m } := by
  simp [padFsmStep]

/-- Settles O41: one move a byte of the message, one change of state, one move a filler byte, and the rest of
the moves in the stop state. -/
theorem paddingMachineComputesPad : Obligations.PaddingMachineComputesPad := by
  intro m bs h
  have hlt := npad_lt m.length h
  have hfuel : m.length + bs = m.length + (1 + (npad m.length bs + (bs - 1 - npad m.length bs))) := by
    omega
  have hpass : padFsmRun m bs m.length { st := .pass, j := 0, out := [] } =
      { st := .pass, j := m.length, out := m } := padFsmRun_pass bs (sent := []) rfl
  rw [padFsm, hfuel, padFsmRun_add, hpass, padFsmRun_add, padFsmRun, padFsmRun, padFsmStep_end]
  by_cases hmod : m.length % bs = 0
  · rw [if_pos hmod, padFsmRun_stop _ _ _ rfl,
      pad_eq_self_of_dvd h (Nat.dvd_of_mod_eq_zero hmod)]
  · have hpos : 0 < npad m.length bs := Nat.pos_of_ne_zero fun h0 => hmod ((npad_eq_zero_iff h).mp h0)
    have hend := Nat.mod_eq_zero_of_dvd (dvd_add_npad m.length h)
    rw [if_neg hmod, padFsmRun_add, padFsmRun_fill m hpos hlt hend, padFsmRun_stop _ _ _ rfl,
      pad_eq_append_npad h, List.length_append, zeros_length]

/-! The laws of padding (R147) -/

theorem unpad_pad (m : Bytes) (bs : Nat) : unpad (pad m bs) m.length = m := List.take_left' rfl

/-- Settles O42. -/
theorem paddingLaws : Obligations.PaddingLaws :=
  ⟨fun m bs h => ⟨unpad_pad m bs, pad_length_mod h,
    pad_eq_self_of_dvd h (Nat.dvd_of_mod_eq_zero (pad_length_mod h))⟩, rfl⟩

/-! The slice multiplexer (R161) -/

theorem toBlocks_length (pm : Bytes) (bs : Nat) : (toBlocks pm bs).length = pm.length / bs := by
  simp [toBlocks]

theorem slice_eq_getElem?_toBlocks (pm : Bytes) {bs : Nat} (h : 0 < bs) (i : Nat) :
    slice pm bs i = (toBlocks pm bs)[i]? := by
  have hi : (i + 1) * bs ≤ pm.length ↔ i < pm.length / bs := (Nat.le_div_iff_mul_le h).symm
  by_cases hle : (i + 1) * bs ≤ pm.length
  · simp [slice_of_le h hle, toBlocks, hi.mp hle]
  · have hout : pm.length / bs ≤ i := not_lt.mp fun hlt => hle (hi.mpr hlt)
    rw [slice, if_neg fun hc => hle hc.2, List.getElem?_eq_none ((toBlocks_length pm bs).trans_le hout)]

/-- Settles O44. -/
theorem sliceMultiplexerPresentsTheBlocks : Obligations.SliceMultiplexerPresentsTheBlocks :=
  fun pm bs h _ => ⟨toBlocks_length pm bs, slice_eq_getElem?_toBlocks pm h⟩

end Sys2Proof.Machine
end

section
/-! PROOFS. What CBC adds to ECB (R194, R199 to R201): laws of xor, the injectivity an invertible transform
gives, and the datapath of the multiplexers. -/

namespace Sys2Proof.Machine

theorem xorBytes_assoc : ∀ a b c : Bytes, xorBytes (xorBytes a b) c = xorBytes a (xorBytes b c)
  | [], _, _ => rfl
  | _ :: _, [], _ => rfl
  | _ :: _, _ :: _, [] => rfl
  | x :: a, y :: b, z :: c => by
    have ih := xorBytes_assoc a b c
    simp only [xorBytes, List.zipWith_cons_cons] at ih ⊢
    rw [ih, BitVec.xor_assoc]

theorem xorBytes_zeros : ∀ b : Bytes, xorBytes b (zeros b.length) = b
  | [] => rfl
  | x :: b => by
    have ih := xorBytes_zeros b
    simp only [xorBytes, zeros, List.length_cons, List.replicate_succ, List.zipWith_cons_cons] at ih ⊢
    rw [ih, BitVec.xor_zero]

theorem xorBytes_right_injective {b v v' : Bytes} (hv : v.length = b.length)
    (hv' : v'.length = b.length) (h : xorBytes b v = xorBytes b v') : v = v' := by
  rw [← xorBytes_cancel hv, xorBytes_comm v, h, xorBytes_comm b, xorBytes_cancel hv']

/-- Settles O48: the output is `D` of the block xored with the chain value, and xor is associative. -/
theorem wrongChainValueFlipsExactlyItsDelta : Obligations.WrongChainValueFlipsExactlyItsDelta := by
  intro bt c key prev delta p next _ _ h
  obtain ⟨⟨d, hD, rfl⟩, rfl⟩ := cbcDecStep_eq_some_iff.mp h
  exact cbcDecStep_eq_some_iff.mpr ⟨⟨d, hD, xorBytes_assoc d prev delta⟩, rfl⟩

/-- An invertible transform gives different blocks different answers. -/
theorem E_injective {cap : Capacities} {bt : BlockTransform} (hinv : bt.Invertible cap)
    {x y key c : Bytes} (hpos : 1 ≤ x.length) (hmax : x.length ≤ cap.bsMax)
    (hkey : x.length ≤ key.length) (hxy : y.length = x.length) (hx : bt.E x key = some c)
    (hy : bt.E y key = some c) : x = y := by
  have hDx := hinv x key c hpos hmax hkey hx
  have hDy := hinv y key c (hxy ▸ hpos) (hxy ▸ hmax) (hxy ▸ hkey) hy
  exact Option.some.inj (hDx.symm.trans hDy)

/-- Encrypting one block under two chain values as long as it answers alike only if they are equal. -/
theorem chain_eq_of_E_xorBytes_eq {cap : Capacities} {bt : BlockTransform} (hinv : bt.Invertible cap)
    {b key v v' c : Bytes} (hpos : 1 ≤ b.length) (hmax : b.length ≤ cap.bsMax)
    (hkey : b.length ≤ key.length) (hv : v.length = b.length) (hv' : v'.length = b.length)
    (h : bt.E (xorBytes b v) key = some c) (h' : bt.E (xorBytes b v') key = some c) : v = v' := by
  have hlen : (xorBytes b v).length = b.length := xorBytes_length hv.symm
  have hlen' : (xorBytes b v').length = b.length := xorBytes_length hv'.symm
  exact xorBytes_right_injective hv hv'
    (E_injective hinv (hlen ▸ hpos) (hlen ▸ hmax) (hlen ▸ hkey) (hlen'.trans hlen.symm) h h')

theorem cbcEncrypt_head {bt : BlockTransform} {b key iv : Bytes} {rest cbs : List Bytes}
    (h : cbcEncrypt bt (b :: rest) key iv = some cbs) :
    ∃ c, bt.E (xorBytes b iv) key = some c ∧ cbs[0]? = some c := by
  simp only [cbcEncrypt, chainBlocks_cons, Option.bind_eq_some_iff, Option.map_eq_some_iff] at h
  obtain ⟨⟨c, v⟩, hstep, os, -, rfl⟩ := h
  exact ⟨c, (cbcEncStep_eq_some_iff.mp hstep).1, rfl⟩

/-- Settles O49. -/
theorem differentIvsGiveDifferentFirstBlocks : Obligations.DifferentIvsGiveDifferentFirstBlocks := by
  intro cap bt b key iv iv' rest cbs cbs' hinv hpos hmax hkey hiv hiv' hne h h' heq
  obtain ⟨c, hc, hget⟩ := cbcEncrypt_head h
  obtain ⟨c', hc', hget'⟩ := cbcEncrypt_head h'
  obtain rfl : c = c' := Option.some.inj (hget.symm.trans (heq.trans hget'))
  exact hne (chain_eq_of_E_xorBytes_eq hinv hpos hmax hkey hiv hiv' hc hc')

theorem cbcEncrypt_singleton (bt : BlockTransform) (b key iv : Bytes) :
    cbcEncrypt bt [b] key iv = (bt.E (xorBytes b iv) key).map fun c => [c] := by
  rw [cbcEncrypt, chainBlocks_cons, cbcEncStep]
  cases bt.E (xorBytes b iv) key <;> rfl

theorem ecbEncrypt_singleton (bt : BlockTransform) (b key : Bytes) :
    ecbEncrypt bt [b] key = (bt.E b key).map fun c => [c] := by
  rw [ecbEncrypt, mapBlocks_cons]
  cases bt.E b key <;> rfl

/-- Settles O50: ECB of one block is CBC of it with the all-zero IV. -/
theorem singleBlockCbcAgainstEcb : Obligations.SingleBlockCbcAgainstEcb := by
  intro cap bt b key iv hinv hpos hmax hkey hiv
  have hzero : cbcEncrypt bt [b] key (zeros b.length) = ecbEncrypt bt [b] key := by
    rw [cbcEncrypt_singleton, ecbEncrypt_singleton, xorBytes_zeros]
  refine ⟨fun h => h ▸ hzero, fun hne cs cs' h h' heq => ?_⟩
  rw [← hzero, cbcEncrypt_singleton, Option.map_eq_some_iff] at h'
  rw [cbcEncrypt_singleton, Option.map_eq_some_iff] at h
  obtain ⟨c, hc, rfl⟩ := h
  obtain ⟨c', hc', rfl⟩ := h'
  obtain rfl : c = c' := List.singleton_inj.mp heq
  exact hne (chain_eq_of_E_xorBytes_eq hinv hpos hmax hkey hiv (zeros_length _) hc hc')

theorem cbcStep_eq_datapath (bt : BlockTransform) (op : Op) (b key v : Bytes) :
    (cbcStep bt op b key v).map (fun r => (r.1, some r.2)) =
      (ecbStep bt op (xinMux op .cbc b v) key).map fun x => (boutMux op .cbc x v, chainMux op .cbc b x) := by
  cases op with
  | encrypt =>
    simp only [cbcStep, cbcEncStep, ecbStep, xinMux]
    cases bt.E (xorBytes b v) key <;> rfl
  | decrypt =>
    simp only [cbcStep, cbcDecStep, ecbStep, xinMux]
    cases bt.D b key <;> rfl

/-- Settles O51. -/
theorem blockStepIsTheMultiplexedDatapath : Obligations.BlockStepIsTheMultiplexedDatapath := by
  intro bt op mode b key v hv
  cases mode with
  | ecb => exact blockStep_ecb bt op b key (some v)
  | cbc => rw [blockStep_cbc bt op hv, cbcStep_eq_datapath]

end Sys2Proof.Machine
end

section
/-! PROOFS. The document's `decrypt` (R233, R234, R243) and the round trip (R245): both functions validate,
check and then run one mode over blocks in one direction. -/

namespace Sys2Proof.Machine

/-- A mode over blocks, in either direction (R177, R178, R195, R196). -/
def modeBlocks (bt : BlockTransform) (op : Op) (mode : Mode) (blocks : List Bytes) (key iv : Bytes) :
    Option (List Bytes) :=
  match mode, op with
  | .ecb, .encrypt => ecbEncrypt bt blocks key
  | .ecb, .decrypt => ecbDecrypt bt blocks key
  | .cbc, .encrypt => cbcEncrypt bt blocks key iv
  | .cbc, .decrypt => cbcDecrypt bt blocks key iv

section
variable {bt : BlockTransform} {mode : Mode} {m key : Bytes} {ivOpt : Option Bytes} {bs : Nat}
  {olenOpt : Option Nat}

/-! The functions by the outcome of their checks. In ECB validation does not look at the IV (R124). -/

theorem encrypt_invalid {k : ModeError} (h : validate mode bs key.length ivOpt = .error k) :
    encrypt bt mode m key ivOpt bs = .err k := by
  cases mode with
  | ecb =>
    have h' : validate .ecb bs key.length none = .error k := h
    simp only [encrypt, encEcbResult, h']
  | cbc => simp only [encrypt, encCbcResult, h]

theorem encrypt_valid (h : validate mode bs key.length ivOpt = .ok ()) :
    encrypt bt mode m key ivOpt bs =
      encryptTail (modeBlocks bt .encrypt mode (toBlocks (pad m bs) bs) key (ivOpt.getD [])) := by
  cases mode with
  | ecb =>
    have h' : validate .ecb bs key.length none = .ok () := h
    simp only [encrypt, encEcbResult, h', modeBlocks]
  | cbc => simp only [encrypt, encCbcResult, h, modeBlocks]

theorem decrypt_invalid {k : ModeError} (h : validate mode bs key.length ivOpt = .error k) :
    decrypt bt mode m key ivOpt bs olenOpt = .err k := by
  cases mode with
  | ecb =>
    have h' : validate .ecb bs key.length none = .error k := h
    simp only [decrypt, decEcbResult, h']
  | cbc => simp only [decrypt, decCbcResult, h]

theorem decrypt_fault {f : FaultCause} (h : validate mode bs key.length ivOpt = .ok ())
    (hf : decryptFault bs m olenOpt = some f) :
    decrypt bt mode m key ivOpt bs olenOpt = .fault f := by
  cases mode with
  | ecb =>
    have h' : validate .ecb bs key.length none = .ok () := h
    simp only [decrypt, decEcbResult, h', hf]
  | cbc => simp only [decrypt, decCbcResult, h, hf]

theorem decrypt_valid (h : validate mode bs key.length ivOpt = .ok ())
    (hf : decryptFault bs m olenOpt = none) :
    decrypt bt mode m key ivOpt bs olenOpt =
      decryptTail olenOpt (modeBlocks bt .decrypt mode (toBlocks m bs) key (ivOpt.getD [])) := by
  cases mode with
  | ecb =>
    have h' : validate .ecb bs key.length none = .ok () := h
    simp only [decrypt, decEcbResult, h', hf, modeBlocks]
  | cbc => simp only [decrypt, decCbcResult, h, hf, modeBlocks]

theorem decryptFault_eq_none_iff :
    decryptFault bs m olenOpt = none ↔ m.length % bs = 0 ∧ ∀ n, olenOpt = some n → n ≤ m.length := by
  unfold decryptFault
  split
  next hmod => simp [hmod]
  next hmod => cases olenOpt <;> simp [not_not.mp hmod]

/-- A decrypt that answers has passed its checks, and answers the blocks' plaintext, cut if a length is
supplied. -/
theorem decrypt_eq_ok {p : Bytes} (h : decrypt bt mode m key ivOpt bs olenOpt = .ok p) :
    validate mode bs key.length ivOpt = .ok () ∧ decryptFault bs m olenOpt = none ∧
      ∃ pbs, modeBlocks bt .decrypt mode (toBlocks m bs) key (ivOpt.getD []) = some pbs ∧
        p = (olenOpt.map (unpad (fromBlocks pbs))).getD (fromBlocks pbs) := by
  cases hv : validate mode bs key.length ivOpt with
  | error k => cases (decrypt_invalid hv).symm.trans h
  | ok _ =>
    cases hf : decryptFault bs m olenOpt with
    | some f => cases (decrypt_fault hv hf).symm.trans h
    | none =>
      rw [decrypt_valid hv hf] at h
      cases hr : modeBlocks bt .decrypt mode (toBlocks m bs) key (ivOpt.getD []) with
      | none => simp [hr, decryptTail] at h
      | some pbs =>
        refine ⟨rfl, rfl, pbs, rfl, ?_⟩
        cases olenOpt <;> simpa [hr, decryptTail, eq_comm] using h

/-- An encrypt that answers has passed validation, and answers the blocks' ciphertext. -/
theorem encrypt_eq_ok {c : Bytes} (h : encrypt bt mode m key ivOpt bs = .ok c) :
    validate mode bs key.length ivOpt = .ok () ∧
      ∃ cbs, modeBlocks bt .encrypt mode (toBlocks (pad m bs) bs) key (ivOpt.getD []) = some cbs ∧
        c = fromBlocks cbs := by
  cases hv : validate mode bs key.length ivOpt with
  | error k => cases (encrypt_invalid hv).symm.trans h
  | ok _ =>
    rw [encrypt_valid hv] at h
    obtain ⟨k, hk⟩ | ⟨cbs, hcbs, htail⟩ := encryptTail_cases
      (modeBlocks bt .encrypt mode (toBlocks (pad m bs) bs) key (ivOpt.getD []))
    · cases hk.symm.trans h
    · exact ⟨rfl, cbs, hcbs, (CommandResult.ok.inj (htail.symm.trans h)).symm⟩

end

/-! Lengths -/

theorem cbcDecStep_length {bt : BlockTransform} {c key prev o v : Bytes} {n : Nat} (hc : c.length = n)
    (hprev : prev.length = n) (h : cbcDecStep bt c key prev = some (o, v)) :
    o.length = n ∧ v.length = n := by
  obtain ⟨⟨d, hD, rfl⟩, rfl⟩ := cbcDecStep_eq_some_iff.mp h
  have hd := (BlockTransform.D_length hD).trans hc
  exact ⟨(xorBytes_length (hd.trans hprev.symm)).trans hd, hc⟩

theorem modeBlocks_decrypt_length {bt : BlockTransform} {mode : Mode} {blocks pbs : List Bytes}
    {key iv : Bytes} {n : Nat} (hblocks : ∀ b ∈ blocks, b.length = n)
    (hiv : mode = .cbc → iv.length = n)
    (h : modeBlocks bt .decrypt mode blocks key iv = some pbs) :
    (fromBlocks pbs).length = (fromBlocks blocks).length := by
  cases mode with
  | ecb => exact fromBlocks_length_of_mapBlocks BlockTransform.D_length h
  | cbc => exact fromBlocks_length_of_chainBlocks cbcDecStep_length hblocks (hiv rfl) h

theorem getD_length_of_valid {mode : Mode} {bs keylen : Nat} {ivOpt : Option Bytes}
    (h : validate mode bs keylen ivOpt = .ok ()) (hm : mode = .cbc) : (ivOpt.getD []).length = bs := by
  obtain ⟨-, -, hiv⟩ := validate_eq_ok_iff.mp h
  obtain ⟨iv, rfl, hlen⟩ := hiv hm
  exact hlen

/-- Settles O53: the blocks' plaintext is as long as the ciphertext, which the checks hold to at least the
supplied length. -/
theorem plaintextLengthIsTheSuppliedLength : Obligations.PlaintextLengthIsTheSuppliedLength := by
  intro bt mode c key p ivOpt bs olenOpt h
  obtain ⟨hv, hf, pbs, hpbs, rfl⟩ := decrypt_eq_ok h
  obtain ⟨hmod, hcut⟩ := decryptFault_eq_none_iff.mp hf
  have hlen : (fromBlocks pbs).length = c.length := by
    rw [modeBlocks_decrypt_length (fun _ => length_of_mem_toBlocks) (getD_length_of_valid hv) hpbs,
      fromBlocks_toBlocks (Nat.dvd_of_mod_eq_zero hmod)]
  cases olenOpt with
  | none => exact hlen
  | some n => simp [hlen, hcut n rfl]

/-! The round trip (R245) -/

/-- The blocks an invertible transform is called on: not empty, within `BS_MAX` and the key (R220). -/
structure InDomain (cap : Capacities) (n : Nat) (key : Bytes) : Prop where
  pos : 1 ≤ n
  le_bsMax : n ≤ cap.bsMax
  le_key : n ≤ key.length

section
variable {cap : Capacities} {bt : BlockTransform} {key : Bytes} {n : Nat} {blocks cbs : List Bytes}

theorem D_of_E {b c : Bytes} (hinv : bt.Invertible cap)
    (hn : InDomain cap n key) (hb : b.length = n) (hE : bt.E b key = some c) :
    bt.D c key = some b ∧ c.length = n :=
  ⟨hinv b key c (hb ▸ hn.pos) (hb ▸ hn.le_bsMax) (hb ▸ hn.le_key) hE, (bt.E_length hE).trans hb⟩

theorem ecbDecrypt_ecbEncrypt (hinv : bt.Invertible cap) (hn : InDomain cap n key)
    (hblocks : ∀ b ∈ blocks, b.length = n) (h : ecbEncrypt bt blocks key = some cbs) :
    ecbDecrypt bt cbs key = some blocks ∧ ∀ c ∈ cbs, c.length = n := by
  unfold ecbEncrypt ecbDecrypt at *
  induction blocks generalizing cbs with
  | nil => simp_all
  | cons b rest ih =>
    simp only [mapBlocks_cons, Option.bind_eq_some_iff, Option.map_eq_some_iff] at h
    obtain ⟨c, hE, cs, hcs, rfl⟩ := h
    obtain ⟨hb, hrest⟩ := List.forall_mem_cons.mp hblocks
    obtain ⟨hD, hc⟩ := D_of_E hinv hn hb hE
    obtain ⟨hdec, hlen⟩ := ih hrest hcs
    exact ⟨by simp [mapBlocks_cons, hD, hdec], List.forall_mem_cons.mpr ⟨hc, hlen⟩⟩

theorem cbcDecrypt_cbcEncrypt (hinv : bt.Invertible cap) (hn : InDomain cap n key) {iv : Bytes}
    (hiv : iv.length = n) (hblocks : ∀ b ∈ blocks, b.length = n)
    (h : cbcEncrypt bt blocks key iv = some cbs) :
    cbcDecrypt bt cbs key iv = some blocks ∧ ∀ c ∈ cbs, c.length = n := by
  unfold cbcEncrypt cbcDecrypt at *
  induction blocks generalizing cbs iv with
  | nil => simp_all
  | cons b rest ih =>
    simp only [chainBlocks_cons, Option.bind_eq_some_iff, Option.map_eq_some_iff] at h
    obtain ⟨⟨c, v⟩, hstep, cs, hcs, rfl⟩ := h
    obtain ⟨hE, rfl⟩ := cbcEncStep_eq_some_iff.mp hstep
    obtain ⟨hb, hrest⟩ := List.forall_mem_cons.mp hblocks
    have hxor : b.length = iv.length := hb.trans hiv.symm
    obtain ⟨hD, hc⟩ := D_of_E hinv hn ((xorBytes_length hxor).trans hb) hE
    obtain ⟨hdec, hlen⟩ := ih hc hrest hcs
    have hback : cbcDecStep bt v key iv = some (b, v) :=
      cbcDecStep_eq_some_iff.mpr ⟨⟨_, hD, (xorBytes_cancel hxor).symm⟩, rfl⟩
    exact ⟨by simp [chainBlocks_cons, hback, hdec], List.forall_mem_cons.mpr ⟨hc, hlen⟩⟩

theorem modeBlocks_round_trip {mode : Mode} {iv : Bytes} (hinv : bt.Invertible cap)
    (hn : InDomain cap n key) (hiv : mode = .cbc → iv.length = n)
    (hblocks : ∀ b ∈ blocks, b.length = n)
    (h : modeBlocks bt .encrypt mode blocks key iv = some cbs) :
    modeBlocks bt .decrypt mode cbs key iv = some blocks ∧ ∀ c ∈ cbs, c.length = n := by
  cases mode with
  | ecb => exact ecbDecrypt_ecbEncrypt hinv hn hblocks h
  | cbc => exact cbcDecrypt_cbcEncrypt hinv hn (hiv rfl) hblocks h

end

/-- Settles O54: decryption meets the blocks that encryption made, and gives back those of the padded
message. -/
theorem decryptUndoesEncrypt : Obligations.DecryptUndoesEncrypt := by
  intro cap bt mode p key c ivOpt bs hinv hmax h
  obtain ⟨-, -, hclen, -⟩ := ciphertextIsAsLongAsThePaddedMessage bt mode p key ivOpt bs
  have hlen : c.length = paddedLength p.length bs := hclen c h
  obtain ⟨hv, cbs, hcbs, rfl⟩ := encrypt_eq_ok h
  obtain ⟨hpos, hkey, -⟩ := validate_eq_ok_iff.mp hv
  obtain ⟨hdec, hcbslen⟩ := modeBlocks_round_trip hinv ⟨hpos, hmax, hkey⟩ (getD_length_of_valid hv)
    (fun _ => length_of_mem_toBlocks) hcbs
  have hblocks : toBlocks (fromBlocks cbs) bs = cbs := toBlocks_fromBlocks hpos hcbslen
  have hmsg : fromBlocks (toBlocks (pad p bs) bs) = pad p bs :=
    fromBlocks_toBlocks (Nat.dvd_of_mod_eq_zero (pad_length_mod hpos))
  have hmod : (fromBlocks cbs).length % bs = 0 := by
    rw [hlen, ← pad_length hpos, pad_length_mod hpos]
  have hcut : p.length ≤ (fromBlocks cbs).length := hlen ▸ le_paddedLength hpos
  constructor
  · rw [decrypt_valid hv (decryptFault_eq_none_iff.mpr ⟨hmod, by simpa using hcut⟩), hblocks, hdec,
      decryptTail, hmsg, unpad_pad]
  · rw [decrypt_valid hv (decryptFault_eq_none_iff.mpr ⟨hmod, by simp⟩), hblocks, hdec, decryptTail,
      hmsg]

end Sys2Proof.Machine
end

section
/-! PROOFS. What a running command has still to answer (R241, R244): each state of a run promises one outcome,
the engine's steps keep the promise and come nearer to their end, and at the end the outcome shows. -/

namespace Sys2Proof.Machine

/-- The end of a command from its processed blocks put together, `none` where a block failed. -/
def tailResult (olenOpt : Option Nat) : Option Bytes → CommandResult
  | none => .err .transformFailure
  | some v => .ok ((olenOpt.map (unpad v)).getD v)

theorem encryptTail_eq (r : Option (List Bytes)) : encryptTail r = tailResult none (r.map fromBlocks) := by
  cases r <;> rfl

theorem decryptTail_eq (olenOpt : Option Nat) (r : Option (List Bytes)) :
    decryptTail olenOpt r = tailResult olenOpt (r.map fromBlocks) := by
  cases r with
  | none => rfl
  | some pbs => cases olenOpt <;> rfl

/-- The length FINISH cuts `OUT` to (R239). -/
def State.cutLength (s : State) : Option Nat :=
  match s.cmd.op with
  | .encrypt => none
  | .decrypt => s.olenOpt

/-- What the blocks of `WORK` from `BIDX` on will give. -/
def blocksLeft (bt : BlockTransform) (s : State) : Option (List Bytes) :=
  modeBlocks bt s.cmd.op s.cmd.mode ((toBlocks s.work s.blksz).drop s.bidx) s.key (s.prev.getD [])

/-- The run the state is in will show `r`, or has. -/
def Promises (bt : BlockTransform) (s : State) (r : CommandResult) : Prop :=
  match s.phase with
  | .idle => False
  | .validate => commandResult bt s.cmd.instr s = r
  | .prep => commandResult bt s.cmd.instr s = r
  | .process => tailResult s.cutLength ((blocksLeft bt s).map fun os => s.out ++ fromBlocks os) = r
  | .finish => tailResult s.cutLength (some s.out) = r
  | .done => Shows s r
  | .error => Shows s r
  | .fault => Shows s r

section
variable {c : Capacities} {bt : BlockTransform} {s t : State} {r : CommandResult}

theorem promises_validate (hp : s.phase = .validate) :
    Promises bt s r ↔ commandResult bt s.cmd.instr s = r := by simp only [Promises, hp]

theorem promises_prep (hp : s.phase = .prep) :
    Promises bt s r ↔ commandResult bt s.cmd.instr s = r := by simp only [Promises, hp]

theorem promises_process (hp : s.phase = .process) :
    Promises bt s r ↔
      tailResult s.cutLength ((blocksLeft bt s).map fun os => s.out ++ fromBlocks os) = r := by
  simp only [Promises, hp]

theorem promises_finish (hp : s.phase = .finish) :
    Promises bt s r ↔ tailResult s.cutLength (some s.out) = r := by simp only [Promises, hp]

theorem Promises.shows (h : Promises bt s r) (hb : s.phase.busy = false) : Shows s r := by
  obtain hp | hp | hp | hp := quiescent_cases hb <;> simp only [Promises, hp] at h
  all_goals exact h

theorem promises_of_shows (h : Shows s r) : Promises bt s r := by
  have hp : s.phase = .done ∨ s.phase = .error ∨ s.phase = .fault := by
    cases r with
    | ok v => exact .inl h.1
    | err k => exact .inr (.inl h.1)
    | fault f => exact .inr (.inr h.1)
  obtain hp | hp | hp := hp <;> simpa only [Promises, hp] using h

/-! The command functions by the direction in `CMD` -/

theorem commandResult_encrypt (hop : s.cmd.op = .encrypt) :
    commandResult bt s.cmd.instr s = encrypt bt s.cmd.mode s.inp s.key s.ivOpt s.blksz := by
  obtain ⟨_, _, _, _, _, ⟨op, mode, ivp, olp⟩, _⟩ := s
  cases hop
  cases mode <;> rfl

theorem commandResult_decrypt (hop : s.cmd.op = .decrypt) :
    commandResult bt s.cmd.instr s = decrypt bt s.cmd.mode s.inp s.key s.ivOpt s.blksz s.olenOpt := by
  obtain ⟨_, _, _, _, _, ⟨op, mode, ivp, olp⟩, _⟩ := s
  cases hop
  cases mode <;> rfl

theorem commandResult_invalid {k : ModeError}
    (h : validate s.cmd.mode s.blksz s.key.length s.ivOpt = .error k) :
    commandResult bt s.cmd.instr s = .err k := by
  cases hop : s.cmd.op with
  | encrypt => rw [commandResult_encrypt hop, encrypt_invalid h]
  | decrypt => rw [commandResult_decrypt hop, decrypt_invalid h]

/-! VALIDATE and PREP -/

theorem validateStep_promises (h : Inv c s) (hp : s.phase = .validate) (hr : Promises bt s r)
    (ht : validateStep s = .next t) : Promises bt t r := by
  rw [promises_validate hp] at hr
  obtain ⟨-, rfl⟩ | ⟨k, hk, rfl⟩ := validateStep_next ht
  · rw [promises_prep rfl, ← hr]
    cases s.cmd.instr <;> rfl
  · rw [← hr, commandResult_invalid hk]
    exact promises_of_shows ⟨rfl, rfl, rfl, h.fcause_eq_none (by simp [hp])⟩

theorem blocksLeft_beginBlocks (hiv : s.cmd.mode = .cbc → s.ivOpt = some s.iv) (w : Bytes) :
    blocksLeft bt (beginBlocks w s) =
      modeBlocks bt s.cmd.op s.cmd.mode (toBlocks w s.blksz) s.key (s.ivOpt.getD []) := by
  cases hm : s.cmd.mode with
  | ecb => cases hop : s.cmd.op <;> simp [blocksLeft, modeBlocks, hm, hop]
  | cbc => simp [blocksLeft, hm, hiv hm]

theorem decryptFault_partitionAssert {bs : Nat} {m : Bytes} {olenOpt : Option Nat}
    (h : m.length % bs ≠ 0) : decryptFault bs m olenOpt = some .partitionAssert := if_pos h

theorem decryptFault_unpadRange {bs n : Nat} {m : Bytes} (h : m.length % bs = 0) (hn : m.length < n) :
    decryptFault bs m (some n) = some .unpadRange := by
  simp [decryptFault, h, hn]

theorem olenOpt_of_olp (h : s.cmd.olp = true) : s.olenOpt = some s.origlen := if_pos h

theorem prepStep_promises (h : Inv c s) (hp : s.phase = .prep) (hr : Promises bt s r)
    (ht : prepStep s = .next t) : Promises bt t r := by
  have hv := h.validated (.inl hp)
  have herr := h.err_eq_none (by simp [hp])
  obtain ⟨-, -, hiv⟩ := h.validate_facts (.inl hp)
  have hleft := blocksLeft_beginBlocks (bt := bt) fun hm => (hiv hm).1
  rw [promises_prep hp] at hr
  obtain ⟨-, ⟨hop, rfl⟩ | ⟨hop, hmod, rfl⟩ | ⟨hop, hmod, holp, hlt, rfl⟩ | ⟨hop, hmod, hcut, rfl⟩⟩ :=
    prepStep_next ht
  · rw [commandResult_encrypt hop, encrypt_valid hv, encryptTail_eq] at hr
    rw [promises_process rfl, hleft, hop, ← hr, State.cutLength, beginBlocks_cmd, hop]
    rfl
  · rw [commandResult_decrypt hop, decrypt_fault hv (decryptFault_partitionAssert hmod)] at hr
    exact hr ▸ promises_of_shows ⟨rfl, rfl, rfl, herr⟩
  · rw [commandResult_decrypt hop, olenOpt_of_olp holp,
      decrypt_fault hv (decryptFault_unpadRange hmod hlt)] at hr
    exact hr ▸ promises_of_shows ⟨rfl, rfl, rfl, herr⟩
  · have hnofault : decryptFault s.blksz s.inp s.olenOpt = none := by
      refine decryptFault_eq_none_iff.mpr ⟨hmod, fun n hn => ?_⟩
      unfold State.olenOpt at hn
      split at hn
      next holp => exact Option.some.inj hn ▸ hcut holp
      · cases hn
    rw [commandResult_decrypt hop, decrypt_valid hv hnofault, decryptTail_eq] at hr
    rw [promises_process rfl, hleft, hop, ← hr, State.cutLength, beginBlocks_cmd, hop]
    rfl

/-! PROCESS and FINISH -/

theorem modeBlocks_ecb (op : Op) (blocks : List Bytes) (key iv : Bytes) :
    modeBlocks bt op .ecb blocks key iv = mapBlocks (fun b => ecbStep bt op b key) blocks := by
  cases op <;> rfl

theorem modeBlocks_cbc (op : Op) (blocks : List Bytes) (key iv : Bytes) :
    modeBlocks bt op .cbc blocks key iv = chainBlocks (fun b v => cbcStep bt op b key v) blocks iv := by
  cases op <;> rfl

/-- The modes peel off one block by the block step. -/
theorem modeBlocks_cons {op : Op} {mode : Mode} {b key : Bytes} {prev : Option Bytes}
    {x : Option (Bytes × Option Bytes)} (h : blockStep bt op mode b key prev = .ok x)
    (rest : List Bytes) :
    modeBlocks bt op mode (b :: rest) key (prev.getD []) =
      x.bind fun y => (modeBlocks bt op mode rest key (y.2.getD [])).map (y.1 :: ·) := by
  cases mode with
  | ecb =>
    obtain rfl := Except.ok.inj h
    simp only [modeBlocks_ecb, mapBlocks_cons, Option.bind_map, Function.comp_def]
  | cbc =>
    cases prev with
    | none => cases h
    | some v =>
      rw [blockStep] at h
      split at h
      next =>
        obtain rfl := Except.ok.inj h
        simp only [modeBlocks_cbc, chainBlocks_cons, Option.bind_map, Function.comp_def,
          Option.getD_some]
      · cases h

@[simp] theorem modeBlocks_nil (op : Op) (mode : Mode) (key iv : Bytes) :
    modeBlocks bt op mode [] key iv = some [] := by
  cases op <;> cases mode <;> rfl

theorem drop_toBlocks_of_slice {pm : Bytes} {bs i : Nat} {b : Bytes} (h : slice pm bs i = some b) :
    (toBlocks pm bs).drop i = b :: (toBlocks pm bs).drop (i + 1) := by
  obtain ⟨⟨hpos, -⟩, -⟩ := slice_eq_some.mp h
  rw [slice_eq_getElem?_toBlocks pm hpos] at h
  obtain ⟨hi, rfl⟩ := List.getElem?_eq_some_iff.mp h
  exact List.drop_eq_getElem_cons hi

theorem processStep_promises (h : Inv c s) (hp : s.phase = .process) (hr : Promises bt s r)
    (ht : processStep bt s = .next t) : Promises bt t r := by
  rw [promises_process hp] at hr
  obtain ⟨b, -, hb, ⟨hs, rfl⟩ | ⟨o, prev', hs, rfl⟩⟩ | ⟨he, rfl⟩ := processStep_next ht
  · have hleft : blocksLeft bt s = none := by
      rw [blocksLeft, drop_toBlocks_of_slice hb, modeBlocks_cons hs, Option.bind_none]
    rw [← hr, hleft]
    exact promises_of_shows ⟨rfl, rfl, rfl, h.fcause_eq_none (by simp [hp])⟩
  · have hleft : blocksLeft bt s = (blocksLeft bt (blockDone o prev' s)).map (o :: ·) := by
      rw [blocksLeft, drop_toBlocks_of_slice hb, modeBlocks_cons hs, Option.bind_some]
      rfl
    rw [promises_process (s := blockDone o prev' s) hp, ← hr, hleft, Option.map_map]
    simp only [Function.comp_def, fromBlocks_cons, blockDone_out, List.append_assoc]
    rfl
  · have hlen : (toBlocks s.work s.blksz).length ≤ s.bidx := by
      rw [toBlocks_length, h.work_length hp, he, Nat.mul_div_cancel _ (h.blksz_pos hp)]
    have hleft : blocksLeft bt s = some [] := by
      rw [blocksLeft, List.drop_eq_nil_of_le hlen, modeBlocks_nil]
    rw [promises_finish rfl, ← hr, hleft, Option.map_some, fromBlocks_nil, List.append_nil]
    rfl

theorem finishStep_promises (h : Inv c s) (hp : s.phase = .finish) (hr : Promises bt s r)
    (ht : finishStep s = .next t) : Promises bt t r := by
  have herr := h.err_eq_none (by simp [hp])
  have hcause := h.fcause_eq_none (by simp [hp])
  rw [promises_finish hp] at hr
  obtain ⟨hop, holp, -, rfl⟩ | ⟨hkeep, rfl⟩ := finishStep_next ht
  · have hcut : s.cutLength = some s.origlen := by
      rw [State.cutLength, hop, ← olenOpt_of_olp holp]
    rw [hcut] at hr
    exact hr ▸ promises_of_shows ⟨rfl, rfl, herr, hcause⟩
  · have hcut : s.cutLength = none := by
      rw [State.cutLength]
      cases hop : s.cmd.op with
      | encrypt => rfl
      | decrypt => exact if_neg fun holp => hkeep ⟨hop, holp⟩
    rw [hcut] at hr
    exact hr ▸ promises_of_shows ⟨rfl, rfl, herr, hcause⟩

theorem engineStep_promises (h : Inv c s) (hr : Promises bt s r) (ht : engineStep bt s = .next t) :
    Promises bt t r := by
  obtain ⟨-, rfl⟩ | ⟨hp, ht⟩ | ⟨hp, ht⟩ | ⟨hp, ht⟩ | ⟨hp, ht⟩ := engineStep_next ht
  · exact hr
  · exact validateStep_promises h hp hr ht
  · exact prepStep_promises h hp hr ht
  · exact processStep_promises h hp hr ht
  · exact finishStep_promises h hp hr ht

/-! The number of engine steps (R241) -/

/-- A bound on the engine steps a run still takes. -/
def stepsLeft (s : State) : Nat :=
  match s.phase with
  | .idle => 0
  | .validate => blockCount s.cmd.instr s + 4
  | .prep => blockCount s.cmd.instr s + 3
  | .process => s.nblk - s.bidx + 2
  | .finish => 1
  | .done => 0
  | .error => 0
  | .fault => 0

theorem blockCount_encrypt (hop : s.cmd.op = .encrypt) :
    blockCount s.cmd.instr s = ceilDiv s.inp.length s.blksz := by
  simp only [blockCount, instr_ofInstr, hop]

theorem blockCount_decrypt (hop : s.cmd.op = .decrypt) :
    blockCount s.cmd.instr s = s.inp.length / s.blksz := by
  simp only [blockCount, instr_ofInstr, hop]

theorem stepsLeft_validate (hp : s.phase = .validate) :
    stepsLeft s = blockCount s.cmd.instr s + 4 := by simp only [stepsLeft, hp]

theorem stepsLeft_prep (hp : s.phase = .prep) : stepsLeft s = blockCount s.cmd.instr s + 3 := by
  simp only [stepsLeft, hp]

theorem stepsLeft_process (hp : s.phase = .process) : stepsLeft s = s.nblk - s.bidx + 2 := by
  simp only [stepsLeft, hp]

theorem stepsLeft_finish (hp : s.phase = .finish) : stepsLeft s = 1 := by simp only [stepsLeft, hp]

theorem stepsLeft_beginBlocks (w : Bytes) (s : State) :
    stepsLeft (beginBlocks w s) = w.length / s.blksz + 2 := rfl

/-- Every engine step of a run brings its end nearer. -/
theorem engineStep_stepsLeft (hb : s.phase.busy = true) (ht : engineStep bt s = .next t) :
    stepsLeft t < stepsLeft s := by
  obtain ⟨hq, -⟩ | ⟨hp, ht⟩ | ⟨hp, ht⟩ | ⟨hp, ht⟩ | ⟨hp, ht⟩ := engineStep_next ht
  · simp [hb] at hq
  · rw [stepsLeft_validate hp]
    obtain ⟨-, rfl⟩ | ⟨k, -, rfl⟩ := validateStep_next ht
    · exact Nat.lt_succ_self _
    · exact Nat.succ_pos _
  · rw [stepsLeft_prep hp]
    obtain ⟨hbs, ⟨hop, rfl⟩ | ⟨-, -, rfl⟩ | ⟨-, -, -, -, rfl⟩ | ⟨hop, -, -, rfl⟩⟩ := prepStep_next ht
    · rw [stepsLeft_beginBlocks, pad_length_div (Nat.pos_of_ne_zero hbs), blockCount_encrypt hop]
      exact Nat.lt_succ_self _
    · exact Nat.succ_pos _
    · exact Nat.succ_pos _
    · rw [stepsLeft_beginBlocks, blockCount_decrypt hop]
      exact Nat.lt_succ_self _
  · rw [stepsLeft_process hp]
    obtain ⟨b, hlt, -, ⟨-, rfl⟩ | ⟨o, prev', -, rfl⟩⟩ | ⟨-, rfl⟩ := processStep_next ht
    · exact Nat.succ_pos _
    · rw [stepsLeft_process (s := blockDone o prev' s) hp, blockDone_nblk, blockDone_bidx]
      omega
    · rw [stepsLeft_finish rfl]
      omega
  · rw [stepsLeft_finish hp]
    obtain ⟨-, -, -, rfl⟩ | ⟨-, rfl⟩ := finishStep_next ht <;> exact Nat.zero_lt_one

end

end Sys2Proof.Machine
end

section
/-! PROOFS. Whole runs (R100, R241, R244): a started command runs to its end whatever quiet turns come between,
and shows what its function answers; from this the two calls and their independence of what they do not read. -/

namespace Sys2Proof.Machine

/-! Runs that settle -/

/-- Every run of at least `k` steps ends in a state with the property. -/
def SettlesWithin (k : Nat) (s : State) (P : State → Prop) : Prop :=
  ∀ n, k ≤ n → ∃ t, run n s = .next t ∧ P t

section
variable {s t : State} {P : State → Prop} {k : Nat}

theorem SettlesWithin.mono {k' : Nat} (h : SettlesWithin k s P) (hk : k ≤ k') : SettlesWithin k' s P :=
  fun n hn => h n (hk.trans hn)

theorem SettlesWithin.imp {Q : State → Prop} (h : SettlesWithin k s P) (hPQ : ∀ t, P t → Q t) :
    SettlesWithin k s Q := by
  intro n hn
  obtain ⟨t, ht, hP⟩ := h n hn
  exact ⟨t, ht, hPQ t hP⟩

theorem SettlesWithin.step (h : step s = .next t) (ht : SettlesWithin k t P) :
    SettlesWithin (k + 1) s P := by
  intro n hn
  obtain ⟨m, rfl⟩ := Nat.exists_eq_add_of_le' (Nat.le_of_add_left_le hn)
  rw [run_succ h]
  exact ht m (Nat.le_of_add_le_add_right hn)

theorem settlesWithin_of_at_rest (hts : s.turns = []) (hb : s.phase.busy = false) (hP : P s) :
    SettlesWithin 0 s P := by
  have hstep : step s = .next s := by rw [step_nil hts, engineStep_quiescent _ hb]
  have hrun (n : Nat) : run n s = .next s := by
    induction n with
    | zero => rfl
    | succ n ih => rw [run_succ hstep, ih]
  exact fun n _ => ⟨s, hrun n, hP⟩

end

/-! A run under way -/

/-- A run that started from the operands and command of `s₀` and will show `r`. -/
structure Underway (s₀ : State) (r : CommandResult) (s : State) : Prop where
  inv : Inv Config.capacities s
  promises : Promises Config.transform s r
  same : SameOperands s₀ s

/-- A run that has ended and shows `r`, with no turn left. -/
structure Finished (s₀ : State) (r : CommandResult) (s : State) : Prop extends Underway s₀ r s where
  turns_nil : s.turns = []
  shows : Shows s r

section
variable {s₀ s : State} {r : CommandResult}

theorem Underway.of_host_fields (h : Underway s₀ r s) (ts : List Turn) (d : Option ReadData) :
    Underway s₀ r { s with turns := ts, readData := d } :=
  ⟨h.inv.of_host_fields ts d, h.promises, h.same⟩

theorem SameOperands.trans {s t u : State} (hst : SameOperands s t) (htu : SameOperands t u) :
    SameOperands s u := by
  obtain ⟨hb, hk, hv, hi, ho, hc⟩ := hst
  obtain ⟨hb', hk', hv', hi', ho', hc'⟩ := htu
  exact ⟨hb'.trans hb, hk'.trans hk, hv'.trans hv, hi'.trans hi, ho'.trans ho, hc'.trans hc⟩

/-- The engine's next step of a run under way: it keeps the run under way and the turns as they are, and while
the engine is busy it brings the end nearer. -/
theorem Underway.engineStep (h : Underway s₀ r s) (hb : s.phase.busy = true) :
    ∃ t, engineStep Config.transform s = .next t ∧ Underway s₀ r t ∧ t.turns = s.turns ∧
      stepsLeft t < stepsLeft s := by
  obtain ⟨t, ht⟩ := engineStep_total Config.transform h.inv
  obtain ⟨f, hcmd⟩ := engineStep_frame hb ht
  exact ⟨t, ht,
    ⟨engineStep_inv h.inv ht, engineStep_promises h.inv h.promises ht,
      h.same.trans ⟨f.blksz, f.key, f.iv, f.inp, f.origlen, hcmd⟩⟩,
    f.turns, engineStep_stepsLeft hb ht⟩

theorem Underway.stepsLeft_pos (h : Underway s₀ r s) (hb : s.phase.busy = true) : 0 < stepsLeft s := by
  obtain ⟨t, -, -, -, hlt⟩ := h.engineStep hb
  exact Nat.zero_lt_of_lt hlt

theorem Underway.finished (h : Underway s₀ r s) (hts : s.turns = []) (hb : s.phase.busy = false) :
    Finished s₀ r s :=
  ⟨h, hts, h.promises.shows hb⟩

theorem Underway.settles_at_rest (h : Underway s₀ r s) (hts : s.turns = [])
    (hb : s.phase.busy = false) : SettlesWithin 0 s (Finished s₀ r) :=
  settlesWithin_of_at_rest hts hb (h.finished hts hb)

theorem step_read_status {ts : List Turn} (hts : s.turns = .host (.read Reg.status.number) :: ts) :
    step s = .next
      { s with turns := ts, readData := some (.number (statusOf s.phase).toNat) } := by
  rw [step_host hts]
  rfl

/-- Engine turns and reads of `STATUS` do not keep a run from its end. -/
theorem Underway.settles_of_quiet (h : Underway s₀ r s) (hq : ∀ turn ∈ s.turns, turn.quiet = true)
    {n : Nat} (hn : s.turns.length + stepsLeft s ≤ n) : SettlesWithin n s (Finished s₀ r) := by
  induction n generalizing s with
  | zero =>
    have hts : s.turns = [] := List.eq_nil_of_length_eq_zero (by omega)
    cases hb : s.phase.busy with
    | false => exact h.settles_at_rest hts hb
    | true =>
      have := h.stepsLeft_pos hb
      omega
  | succ n ih =>
    cases hts : s.turns with
    | nil =>
      cases hb : s.phase.busy with
      | false => exact (h.settles_at_rest hts hb).mono (Nat.zero_le _)
      | true =>
        obtain ⟨t, ht, hunder, htt, hlt⟩ := h.engineStep hb
        exact (ih hunder (htt ▸ hq) (by rw [htt]; omega)).step ((step_nil hts).trans ht)
    | cons turn ts =>
      rw [hts] at hq hn
      obtain ⟨hquiet, hrest⟩ := List.forall_mem_cons.mp hq
      rw [List.length_cons] at hn
      cases turn with
      | wait => cases hquiet
      | host m =>
        obtain rfl := of_decide_eq_true hquiet
        have hlen : ts.length + stepsLeft s ≤ n := by omega
        exact (ih (h.of_host_fields ts _) hrest hlen).step (step_read_status hts)
      | engine =>
        have hunder := h.of_host_fields ts s.readData
        have hleft : stepsLeft { s with turns := ts } = stepsLeft s := rfl
        cases hb : s.phase.busy with
        | false =>
          have hstep : step s = .next { s with turns := ts } :=
            (step_engine hts).trans (engineStep_quiescent _ hb)
          exact (ih hunder hrest (by rw [hleft]; dsimp only; omega)).step hstep
        | true =>
          obtain ⟨t, ht, hunder', htt, hlt⟩ := hunder.engineStep hb
          exact (ih hunder' (htt ▸ hrest) (by rw [htt]; dsimp only; omega)).step
            ((step_engine hts).trans ht)

theorem Underway.settles_of_wait_at_rest (h : Underway s₀ r s) (hts : s.turns = [.wait])
    (hb : s.phase.busy = false) : SettlesWithin 1 s (Finished s₀ r) := by
  have hrest : (waitTurn [] s).turns = [] := by simp [hb]
  exact ((h.of_host_fields _ _).settles_at_rest hrest hb).step (step_wait hts)

/-- `WAIT` gives the engine the turns it needs (R100). -/
theorem Underway.settles_of_wait (h : Underway s₀ r s) (hts : s.turns = [.wait]) {n : Nat}
    (hn : stepsLeft s ≤ n) : SettlesWithin (2 * n + 1) s (Finished s₀ r) := by
  induction n generalizing s with
  | zero =>
    cases hb : s.phase.busy with
    | false => exact h.settles_of_wait_at_rest hts hb
    | true =>
      have := h.stepsLeft_pos hb
      omega
  | succ n ih =>
    cases hb : s.phase.busy with
    | false => exact (h.settles_of_wait_at_rest hts hb).mono (by omega)
    | true =>
      have hpoll : (waitTurn [] s).turns = [.engine, .wait] := by simp [hb]
      have hunder : Underway s₀ r { waitTurn [] s with turns := [.wait] } := h.of_host_fields _ _
      obtain ⟨t, ht, hunder', htt, hlt⟩ := hunder.engineStep hb
      have hleft : stepsLeft t ≤ n := Nat.le_of_lt_succ (hlt.trans_le hn)
      exact ((ih hunder' htt hleft).step ((step_engine hpoll).trans ht)).step (step_wait hts)

end

/-! A presented command -/

section
variable {s : State}

theorem commandResult_startCommand (bt : BlockTransform) (i : Instr) (c : Command) (s : State) :
    commandResult bt i (startCommand c s) = commandResult bt i s := by
  cases i <;> rfl

theorem commandResult_turns (bt : BlockTransform) (i : Instr) (s : State) (ts : List Turn) :
    commandResult bt i { s with turns := ts } = commandResult bt i s := by
  cases i <;> rfl

/-- A START in an open phase sets out for what the command's function answers on the operands. -/
theorem underway_startCommand (h : Inv Config.capacities s) (ho : s.phase.hostOpen = true) (i : Instr) :
    Underway (startCommand (Command.ofInstr i) s) (commandResult Config.transform i s)
      (startCommand (Command.ofInstr i) s) := by
  refine ⟨startCommand_inv h ho _, (promises_validate rfl).mpr ?_, rfl, rfl, rfl, rfl, rfl, rfl⟩
  rw [startCommand_cmd, ofInstr_instr, commandResult_startCommand]

theorem stepsLeft_startCommand (i : Instr) (s : State) :
    stepsLeft (startCommand (Command.ofInstr i) s) = blockCount i s + 4 := by
  rw [stepsLeft_validate rfl, startCommand_cmd, ofInstr_instr]
  rfl

end

/-- What is shown is shown outside PROCESS, where the chain register and `WORK` are empty. -/
theorem Shows.phase_ne_process {s : State} {r : CommandResult} (h : Shows s r) : s.phase ≠ .process := by
  cases r with
  | ok v => obtain ⟨hp, -⟩ := h; simp [hp]
  | err k => obtain ⟨hp, -⟩ := h; simp [hp]
  | fault f => obtain ⟨hp, -⟩ := h; simp [hp]

/-- Settles O55. -/
theorem machineAgreesWithTheCommandFunctions : Obligations.MachineAgreesWithTheCommandFunctions := by
  intro i s ts h ho hq
  have hunder := underway_startCommand (s := { s with turns := ts }) (h.of_host_fields ts s.readData) ho i
  have hbound : ts.length + stepsLeft (startCommand (Command.ofInstr i) { s with turns := ts }) ≤
      ts.length + (blockCount i s + 4) := by
    rw [stepsLeft_startCommand]
    exact le_rfl
  have hstart : step { s with turns := .host (.start (encode i)) :: ts } =
      .next (startCommand (Command.ofInstr i) { s with turns := ts }) :=
    step_start (s := { s with turns := .host (.start (encode i)) :: ts }) ho
      (decodeWord_encode i) rfl
  intro k hk
  obtain ⟨t, ht, hfin⟩ := (hunder.settles_of_quiet hq hbound).step hstart k (by omega)
  obtain ⟨hb, hkey, hiv, hi, hol, hcmd⟩ := hfin.same
  have hne := hfin.shows.phase_ne_process
  rw [commandResult_turns] at hfin
  exact ⟨t, ht, hfin.shows, hfin.inv.prev_outside hne, hfin.inv.work_outside hne, hb, hkey, hiv, hi,
    hol, hcmd, hfin.turns_nil⟩

/-! What is not read (R39) -/

/-- The command functions on what a command reads. -/
def viewResult (bt : BlockTransform) :
    Op × Mode × Nat × Bytes × Bytes × Option Bytes × Option Nat → CommandResult
  | (.encrypt, mode, bs, key, m, ivOpt, _) => encrypt bt mode m key ivOpt bs
  | (.decrypt, mode, bs, key, m, ivOpt, olenOpt) => decrypt bt mode m key ivOpt bs olenOpt

theorem commandResult_eq_viewResult (bt : BlockTransform) (i : Instr) (s : State) :
    commandResult bt i s = viewResult bt (commandView i s) := by
  cases i <;> rfl

/-- An outcome fixes the phase, both codes and `OUT`. -/
theorem Shows.eq_of_shows {t t' : State} {r : CommandResult} (h : Shows t r) (h' : Shows t' r) :
    t.phase = t'.phase ∧ t.err = t'.err ∧ t.fcause = t'.fcause ∧ t.out = t'.out := by
  cases r with
  | ok v =>
    obtain ⟨hp, hout, herr, hcause⟩ := h
    obtain ⟨hp', hout', herr', hcause'⟩ := h'
    exact ⟨hp.trans hp'.symm, herr.trans herr'.symm, hcause.trans hcause'.symm, hout.trans hout'.symm⟩
  | err k =>
    obtain ⟨hp, herr, hout, hcause⟩ := h
    obtain ⟨hp', herr', hout', hcause'⟩ := h'
    exact ⟨hp.trans hp'.symm, herr.trans herr'.symm, hcause.trans hcause'.symm, hout.trans hout'.symm⟩
  | fault f =>
    obtain ⟨hp, hcause, hout, herr⟩ := h
    obtain ⟨hp', hcause', hout', herr'⟩ := h'
    exact ⟨hp.trans hp'.symm, herr.trans herr'.symm, hcause.trans hcause'.symm, hout.trans hout'.symm⟩

/-- A command presented with no other turn listed ends showing what its function answers (O55). -/
theorem shows_of_run_presentStart {i : Instr} {s t : State} {k : Nat} (h : Inv Config.capacities s)
    (ho : s.phase.hostOpen = true) (hts : s.turns = []) (hk : blockCount i s + 5 ≤ k)
    (ht : run k (presentStart (encode i) s) = .next t) :
    Shows t (commandResult Config.transform i s) := by
  have hnone : ∀ turn ∈ ([] : List Turn), turn.quiet = true := by simp
  have hk' : ([] : List Turn).length + 1 + (blockCount i s + 4) ≤ k := by
    rw [List.length_nil]
    omega
  obtain ⟨t', ht', hshows, -⟩ := machineAgreesWithTheCommandFunctions i s [] h ho hnone k hk'
  rw [presentStart, hts, ht'] at ht
  exact Host.Outcome.next.inj ht ▸ hshows

/-- Settles O56: each run shows its function's answer, and the functions see only the view. -/
theorem nothingUnreadInfluencesTheOutcome : Obligations.NothingUnreadInfluencesTheOutcome := by
  intro i i' s s' t t' k k' h h' ho ho' hts hts' hview hk hk' ht ht'
  have hshows := shows_of_run_presentStart h ho hts hk ht
  have hshows' := shows_of_run_presentStart h' ho' hts' hk' ht'
  rw [commandResult_eq_viewResult, hview, ← commandResult_eq_viewResult] at hshows
  exact hshows.eq_of_shows hshows'

/-! The two calls (R100) -/

/-- Some number of steps from which on every run ends in a state with the property. -/
def Settles (s : State) (P : State → Prop) : Prop := ∃ k, SettlesWithin k s P

/-- The host moves of either call. -/
def callScript (op : Op) (mode : Mode) (m key : Bytes) (ivOpt : Option Bytes) (bs : Nat)
    (olenOpt : Option Nat) : List Turn :=
  .host (.set Reg.blksz.number bs) :: .host (.load Reg.keyport.number key) ::
    (ivOpt.toList.map (fun v => Turn.host (.load Reg.ivport.number v)) ++
      .host (.load Reg.inport.number m) ::
        (olenOpt.toList.map (fun n => Turn.host (.set Reg.origlen.number n)) ++
          [.host (.start (encode (instrOfFields op mode ivOpt.isSome olenOpt.isSome))), .wait]))

theorem encryptScript_eq (mode : Mode) (p key : Bytes) (ivOpt : Option Bytes) (bs : Nat) :
    encryptScript mode p key ivOpt bs = callScript .encrypt mode p key ivOpt bs none := by
  cases ivOpt <;> rfl

theorem decryptScript_eq (mode : Mode) (m key : Bytes) (ivOpt : Option Bytes) (bs : Nat)
    (olenOpt : Option Nat) :
    decryptScript mode m key ivOpt bs olenOpt = callScript .decrypt mode m key ivOpt bs olenOpt := by
  cases ivOpt <;> cases olenOpt <;> rfl

/-- The state with the operands of a call; a register or buffer the call does not write stays. -/
def State.withOperands (s : State) (m key : Bytes) (ivOpt : Option Bytes) (bs : Nat)
    (olenOpt : Option Nat) : State :=
  { s with blksz := bs, key := key, iv := ivOpt.getD s.iv, inp := m, origlen := olenOpt.getD s.origlen }

/-- The operands of a call fit the hardware. -/
structure CallFits (c : Capacities) (m key : Bytes) (ivOpt : Option Bytes) (bs : Nat)
    (olenOpt : Option Nat) : Prop where
  blksz_le : bs ≤ c.bsMax
  key_le : key.length ≤ c.keyMax
  inp_le : m.length ≤ c.inMax
  iv_le : ∀ iv, ivOpt = some iv → iv.length ≤ c.ivMax
  origlen_lt : ∀ n, olenOpt = some n → n < 2 ^ c.lenW

theorem getD_of_forall {α : Type} {p : α → Prop} {o : Option α} {d : α} (ho : ∀ a, o = some a → p a)
    (hd : p d) : p (o.getD d) := by
  cases o with
  | none => exact hd
  | some a => exact ho a rfl

section
variable {s : State} {P : State → Prop} {ts : List Turn} {mode : Mode} {op : Op} {m key : Bytes}
  {ivOpt : Option Bytes} {bs : Nat} {olenOpt : Option Nat}

theorem Settles.of_step {t : State} (h : step s = .next t) (ht : Settles t P) : Settles s P := by
  obtain ⟨k, hk⟩ := ht
  exact ⟨k + 1, hk.step h⟩

theorem Settles.set_blksz (ho : s.phase.hostOpen = true) (hn : bs ≤ Config.capacities.bsMax)
    (h : Settles { s with blksz := bs, turns := ts } P) :
    Settles { s with turns := .host (.set Reg.blksz.number bs) :: ts } P := by
  obtain ⟨hset, -⟩ := setWritesTheRegisterOrIsRefused
    { s with turns := .host (.set Reg.blksz.number bs) :: ts } bs ts
  obtain ⟨hset, -⟩ := hset rfl
  exact .of_step (hset ho hn) h

theorem Settles.load_key (ho : s.phase.hostOpen = true) (hl : key.length ≤ Config.capacities.keyMax)
    (h : Settles { s with key := key, turns := ts } P) :
    Settles { s with turns := .host (.load Reg.keyport.number key) :: ts } P := by
  obtain ⟨hload, -, -⟩ := loadReplacesTheWholeBuffer
    { s with turns := .host (.load Reg.keyport.number key) :: ts } key ts ho
  exact .of_step (hload rfl hl) h

theorem Settles.load_inp (ho : s.phase.hostOpen = true) (hl : m.length ≤ Config.capacities.inMax)
    (h : Settles { s with inp := m, turns := ts } P) :
    Settles { s with turns := .host (.load Reg.inport.number m) :: ts } P := by
  obtain ⟨-, -, hload⟩ := loadReplacesTheWholeBuffer
    { s with turns := .host (.load Reg.inport.number m) :: ts } m ts ho
  exact .of_step (hload rfl hl) h

theorem Settles.load_iv (ho : s.phase.hostOpen = true)
    (hl : ∀ iv, ivOpt = some iv → iv.length ≤ Config.capacities.ivMax)
    (h : Settles { s with iv := ivOpt.getD s.iv, turns := ts } P) :
    Settles
      { s with turns := ivOpt.toList.map (fun v => .host (.load Reg.ivport.number v)) ++ ts } P := by
  cases ivOpt with
  | none => exact h
  | some iv =>
    obtain ⟨-, hload, -⟩ := loadReplacesTheWholeBuffer
      { s with turns := .host (.load Reg.ivport.number iv) :: ts } iv ts ho
    exact .of_step (hload rfl (hl iv rfl)) h

theorem Settles.set_origlen (ho : s.phase.hostOpen = true)
    (hn : ∀ n, olenOpt = some n → n < 2 ^ Config.capacities.lenW)
    (h : Settles { s with origlen := olenOpt.getD s.origlen, turns := ts } P) :
    Settles
      { s with turns := olenOpt.toList.map (fun n => .host (.set Reg.origlen.number n)) ++ ts } P := by
  cases olenOpt with
  | none => exact h
  | some n =>
    obtain ⟨-, hset⟩ := setWritesTheRegisterOrIsRefused
      { s with turns := .host (.set Reg.origlen.number n) :: ts } n ts
    obtain ⟨hset, -⟩ := hset rfl
    exact .of_step (hset ho (hn n rfl)) h

theorem withOperands_inv (h : Inv Config.capacities s) (ho : s.phase.hostOpen = true)
    (hfit : CallFits Config.capacities m key ivOpt bs olenOpt) :
    Inv Config.capacities (s.withOperands m key ivOpt bs olenOpt) :=
  h.of_open ho rfl rfl rfl rfl rfl rfl
    { blksz_le := hfit.blksz_le
      key_le := hfit.key_le
      iv_le := getD_of_forall hfit.iv_le h.iv_le
      inp_le := hfit.inp_le
      origlen_lt := getD_of_forall hfit.origlen_lt h.origlen_lt }

/-- Presented with `WAIT` behind it, a command ends showing what its function answers. -/
theorem settles_start_wait (h : Inv Config.capacities s) (ho : s.phase.hostOpen = true) (i : Instr) :
    Settles { s with turns := [.host (.start (encode i)), .wait] } fun t =>
      t.turns = [] ∧ Shows t (commandResult Config.transform i s) := by
  have hunder :=
    underway_startCommand (s := { s with turns := [.wait] }) (h.of_host_fields _ s.readData) ho i
  rw [commandResult_turns] at hunder
  have hstart : step { s with turns := [.host (.start (encode i)), .wait] } =
      .next (startCommand (Command.ofInstr i) { s with turns := [.wait] }) :=
    step_start (s := { s with turns := [.host (.start (encode i)), .wait] }) ho (decodeWord_encode i) rfl
  have hwait := (hunder.settles_of_wait rfl le_rfl).step hstart
  exact ⟨_, hwait.imp fun t hfin => ⟨hfin.turns_nil, hfin.shows⟩⟩

/-- Either call ends showing what its command's function answers on the call's operands. -/
theorem settles_callScript (h : Inv Config.capacities s) (ho : s.phase.hostOpen = true)
    (hfit : CallFits Config.capacities m key ivOpt bs olenOpt) :
    Settles { s with turns := callScript op mode m key ivOpt bs olenOpt } fun t =>
      t.turns = [] ∧ Shows t (commandResult Config.transform
        (instrOfFields op mode ivOpt.isSome olenOpt.isSome)
        (s.withOperands m key ivOpt bs olenOpt)) := by
  refine .set_blksz ho hfit.blksz_le ?_
  refine .load_key (s := { s with blksz := bs }) ho hfit.key_le ?_
  refine .load_iv (s := { s with blksz := bs, key := key }) ho hfit.iv_le ?_
  refine .load_inp (s := { s with blksz := bs, key := key, iv := ivOpt.getD s.iv }) ho hfit.inp_le ?_
  refine .set_origlen (s := { s with blksz := bs, key := key, iv := ivOpt.getD s.iv, inp := m }) ho
    hfit.origlen_lt ?_
  exact settles_start_wait (withOperands_inv h ho hfit) ho _

theorem commandResult_call_encrypt (bt : BlockTransform) :
    commandResult bt (instrOfFields .encrypt mode ivOpt.isSome olenOpt.isSome)
      (s.withOperands m key ivOpt bs olenOpt) = encrypt bt mode m key ivOpt bs := by
  cases mode <;> cases ivOpt <;> rfl

theorem commandResult_call_decrypt (bt : BlockTransform) :
    commandResult bt (instrOfFields .decrypt mode ivOpt.isSome olenOpt.isSome)
      (s.withOperands m key ivOpt bs olenOpt) = decrypt bt mode m key ivOpt bs olenOpt := by
  cases mode <;> cases ivOpt <;> cases olenOpt <;> rfl

end

theorem callResult_of_shows_ok {t : State} {v : Bytes} (h : Shows t (.ok v)) :
    callResult t = some (.ok v) := by
  obtain ⟨hp, hout, -⟩ := h
  simp only [callResult, hp, hout]

theorem callResult_of_shows_err {t : State} {k : ModeError} (h : Shows t (.err k)) :
    callResult t = some (.err k) := by
  obtain ⟨hp, herr, -⟩ := h
  simp only [callResult, hp, herr, Option.map_some]

theorem callResult_of_shows_fault {t : State} {f : FaultCause} (h : Shows t (.fault f)) :
    callResult t = none := by
  obtain ⟨hp, -⟩ := h
  simp only [callResult, hp]

/-- Settles O58: an encrypt ends in no fault, so its call has a result. -/
theorem encryptCallComputesEncrypt : Obligations.EncryptCallComputesEncrypt := by
  intro mode p key ivOpt bs s h ho hbs hkey hp hiv
  obtain ⟨k, hk⟩ := settles_callScript (op := .encrypt) (mode := mode) (olenOpt := none) h ho
    ⟨hbs, hkey, hp, hiv, by simp⟩
  rw [← encryptScript_eq] at hk
  refine ⟨k, fun n hn => ?_⟩
  obtain ⟨t, ht, hts, hshows⟩ := hk n hn
  rw [commandResult_call_encrypt] at hshows
  refine ⟨t, ht, hts, ?_⟩
  obtain ⟨e, he⟩ | ⟨c, hc, -⟩ := encrypt_cases Config.transform mode p key ivOpt bs
  · rw [he] at hshows ⊢
    exact callResult_of_shows_err hshows
  · rw [hc] at hshows ⊢
    exact callResult_of_shows_ok hshows

/-- Settles O59. -/
theorem decryptCallComputesDecrypt : Obligations.DecryptCallComputesDecrypt := by
  intro mode c key ivOpt bs olenOpt s h ho hbs hkey hc hiv holen
  obtain ⟨k, hk⟩ := settles_callScript (op := .decrypt) (mode := mode) h ho
    ⟨hbs, hkey, hc, hiv, holen⟩
  rw [← decryptScript_eq] at hk
  refine ⟨k, fun n hn => ?_⟩
  obtain ⟨t, ht, hts, hshows⟩ := hk n hn
  rw [commandResult_call_decrypt] at hshows
  refine ⟨t, ht, hts, ?_⟩
  cases hr : decrypt Config.transform mode c key ivOpt bs olenOpt with
  | ok v => exact callResult_of_shows_ok (hr ▸ hshows)
  | err e => exact callResult_of_shows_err (hr ▸ hshows)
  | fault f => exact callResult_of_shows_fault (hr ▸ hshows)

end Sys2Proof.Machine
end
